-- ==== Sys2Proof/Word.lean ====
section
/-! DEFINITION. The 32-bit word of CORE's host bus: command words, register words and limbs
(30_encoding.md R110, 20_memory.md R76). -/

namespace Sys2Proof

/-- A 32-bit bus word; a command is one such word (R110). -/
abbrev Word := BitVec 32

end Sys2Proof
end

