-- ==== Sys2Proof/Syntax.lean ====
section
/-! DEFINITION. The commands of CORE as syntax (30_encoding.md R114), the rejection codes
(60_exceptions.md R263), the pseudo-instructions (R120) and the assembler text of a command (R119). -/

namespace Sys2Proof

/-- A register field: the index r of F[r], 0 to 31 (R111, 10_state.md R31). -/
abbrev Reg := Fin 32

/-- The codes a command is rejected with (R263). ERRCODE 0x00 (NONE) is the absence of one. -/
inductive RejectCode where
  /-- OP is reserved (R117). -/
  | illegalOpcode
  /-- A fixed-zero field of the format is nonzero (R112). -/
  | reservedBits
  /-- A pair operand names an odd register (R264). -/
  | misalignedPair
  /-- CTRL.LOCK = 0. -/
  | notLocked
  /-- STATUS.BUSY = 1. -/
  | busy
  /-- The chain table is not valid (R265). -/
  | badChain
  deriving DecidableEq, Repr

/-- The commands (R114), one constructor a row. The operands stand in the assembler's order: rd, rs1, rs2 (R119).
`double` is the D bit (R111). A pair operand is the even register that names it (10_state.md R32). -/
inductive Instr where
  | mpadd (double : Bool) (rd rs1 rs2 : Reg)
  | mpsub (double : Bool) (rd rs1 rs2 : Reg)
  | mpshl1 (rd rs1 : Reg)
  | mpshr1 (rd rs1 : Reg)
  | fmul (rd rs1 rs2 : Reg)
  | fsqr (rd rs1 : Reg)
  | ftom (rd rs1 : Reg)
  | ffromm (rd rs1 : Reg)
  | fcorr (rd rs1 : Reg)
  | fadd (rd rs1 rs2 : Reg)
  | fsub (rd rs1 rs2 : Reg)
  | fneg (rd rs1 : Reg)
  | fhalf (rd rs1 : Reg)
  | finvc (rd rs1 : Reg)
  | finv (rd rs1 : Reg)
  | f2add (rd rs1 rs2 : Reg)
  | f2sub (rd rs1 rs2 : Reg)
  | f2neg (rd rs1 : Reg)
  | f2half (rd rs1 : Reg)
  | f2corr (rd rs1 : Reg)
  | f2mul (rd rs1 rs2 : Reg)
  | f2sqr (rd rs1 : Reg)
  | f2inv (rd rs1 : Reg)
  | f2tom (rd rs1 : Reg)
  | f2fromm (rd rs1 : Reg)
  deriving DecidableEq, Repr

/-- The pseudo-instruction `fdbl rd, rs` (R120). -/
def Instr.fdbl (rd rs : Reg) : Instr := .fadd rd rs rs

/-- The pseudo-instruction `f2dbl rd, rs` (R120). -/
def Instr.f2dbl (rd rs : Reg) : Instr := .f2add rd rs rs

/-- A register operand's text, `f0` to `f31` (R119). -/
def regText (r : Reg) : String := "f" ++ toString r.val

/-- Two operands, separated by a comma (R119). -/
def asm2 (name : String) (rd rs1 : Reg) : String := name ++ " " ++ regText rd ++ ", " ++ regText rs1

/-- Three operands, separated by commas (R119). -/
def asm3 (name : String) (rd rs1 rs2 : Reg) : String := asm2 name rd rs1 ++ ", " ++ regText rs2

/-- A command's assembler text (R119): lower-case mnemonic, operands `rd, rs1[, rs2]`, the suffix `.d` for D = 1. -/
def Instr.asm : Instr → String
  | .mpadd d rd rs1 rs2 => asm3 (bif d then "mpadd.d" else "mpadd") rd rs1 rs2
  | .mpsub d rd rs1 rs2 => asm3 (bif d then "mpsub.d" else "mpsub") rd rs1 rs2
  | .mpshl1 rd rs1 => asm2 "mpshl1" rd rs1
  | .mpshr1 rd rs1 => asm2 "mpshr1" rd rs1
  | .fmul rd rs1 rs2 => asm3 "fmul" rd rs1 rs2
  | .fsqr rd rs1 => asm2 "fsqr" rd rs1
  | .ftom rd rs1 => asm2 "ftom" rd rs1
  | .ffromm rd rs1 => asm2 "ffromm" rd rs1
  | .fcorr rd rs1 => asm2 "fcorr" rd rs1
  | .fadd rd rs1 rs2 => asm3 "fadd" rd rs1 rs2
  | .fsub rd rs1 rs2 => asm3 "fsub" rd rs1 rs2
  | .fneg rd rs1 => asm2 "fneg" rd rs1
  | .fhalf rd rs1 => asm2 "fhalf" rd rs1
  | .finvc rd rs1 => asm2 "finvc" rd rs1
  | .finv rd rs1 => asm2 "finv" rd rs1
  | .f2add rd rs1 rs2 => asm3 "f2add" rd rs1 rs2
  | .f2sub rd rs1 rs2 => asm3 "f2sub" rd rs1 rs2
  | .f2neg rd rs1 => asm2 "f2neg" rd rs1
  | .f2half rd rs1 => asm2 "f2half" rd rs1
  | .f2corr rd rs1 => asm2 "f2corr" rd rs1
  | .f2mul rd rs1 rs2 => asm3 "f2mul" rd rs1 rs2
  | .f2sqr rd rs1 => asm2 "f2sqr" rd rs1
  | .f2inv rd rs1 => asm2 "f2inv" rd rs1
  | .f2tom rd rs1 => asm2 "f2tom" rd rs1
  | .f2fromm rd rs1 => asm2 "f2fromm" rd rs1

end Sys2Proof
end

