-- ==== Sys2Proof/WellFormed.lean ====
section
/-! DEFINITION. Which commands are well formed: the register constraints of the formats
(30_encoding.md R112). -/

namespace Sys2Proof

/-- A register index that may name a pair (10_state.md R32). -/
def Reg.isEven (r : Reg) : Bool := r.val % 2 == 0

/-- The register fields of a command that name pairs (R112: formats P3 and P2, and R3D with D = 1). -/
def Instr.pairFields : Instr → List Reg
  | .mpadd d rd rs1 rs2 => bif d then [rd, rs1, rs2] else []
  | .mpsub d rd rs1 rs2 => bif d then [rd, rs1, rs2] else []
  | .mpshl1 _ _ => []
  | .mpshr1 _ _ => []
  | .fmul _ _ _ => []
  | .fsqr _ _ => []
  | .ftom _ _ => []
  | .ffromm _ _ => []
  | .fcorr _ _ => []
  | .fadd _ _ _ => []
  | .fsub _ _ _ => []
  | .fneg _ _ => []
  | .fhalf _ _ => []
  | .finvc _ _ => []
  | .finv _ _ => []
  | .f2add rd rs1 rs2 => [rd, rs1, rs2]
  | .f2sub rd rs1 rs2 => [rd, rs1, rs2]
  | .f2neg rd rs1 => [rd, rs1]
  | .f2half rd rs1 => [rd, rs1]
  | .f2corr rd rs1 => [rd, rs1]
  | .f2mul rd rs1 rs2 => [rd, rs1, rs2]
  | .f2sqr rd rs1 => [rd, rs1]
  | .f2inv rd rs1 => [rd, rs1]
  | .f2tom rd rs1 => [rd, rs1]
  | .f2fromm rd rs1 => [rd, rs1]

/-- A command is well formed when every pair it names is named by an even register (R112, R264). -/
def Instr.wf (i : Instr) : Bool := i.pairFields.all Reg.isEven

end Sys2Proof
end

