-- ==== Sys2Proof/Decode.lean ====
section
/-! DEFINITION. The decoder of command words (30_encoding.md R111 to R118), total on 32-bit words and
rejecting by name, and after it the encoder. -/

namespace Sys2Proof

/-- `bits[hi:lo] of x` (00_scope.md R14). -/
def bits (hi lo x : Nat) : Nat := x / 2 ^ lo % 2 ^ (hi - lo + 1)

/-- A register field of a command word at bit `lo` (R111). -/
def regField (lo n : Nat) : Reg := Fin.ofNat 32 (bits (lo + 4) lo n)

/-- The five formats (R112). -/
inductive Format where
  | r3
  | r3d
  | r2
  | p3
  | p2
  deriving DecidableEq, Repr

/-- What a decoder answers (R118): a command, or the code it is rejected with. -/
inductive Decoded where
  | cmd (i : Instr)
  | reject (c : RejectCode)
  deriving DecidableEq, Repr

/-- The value of a format's fixed-zero bits, which must be 0 (R112): D and RSV in R3 and P3, RSV in R3D,
RS2, D and RSV in R2 and P2. -/
def Format.fixedZero : Format → Nat → Nat
  | .r3, n => bits 10 0 n
  | .r3d, n => bits 9 0 n
  | .r2, n => bits 15 0 n
  | .p3, n => bits 10 0 n
  | .p2, n => bits 15 0 n

/-- The register constraint of a format (R112): the register fields that name pairs are even, so their lowest bits
(21 of RD, 16 of RS1, 11 of RS2) are 0. In R3D the fields name pairs when D = 1. -/
def Format.pairsEven : Format → Nat → Bool
  | .r3, _ => true
  | .r3d, n => bits 10 10 n == 0 || (bits 21 21 n == 0 && bits 16 16 n == 0 && bits 11 11 n == 0)
  | .r2, _ => true
  | .p3, n => bits 21 21 n == 0 && bits 16 16 n == 0 && bits 11 11 n == 0
  | .p2, n => bits 21 21 n == 0 && bits 16 16 n == 0

/-- Checks 2 and 3 of R118, in that order, on the command `i` that the word's OP selects. -/
def gate (fmt : Format) (n : Nat) (i : Instr) : Decoded :=
  if fmt.fixedZero n = 0 then (if fmt.pairsEven n then .cmd i else .reject .misalignedPair)
  else .reject .reservedBits

/-- `Decode(cmd)` (R118) over the opcode map R114: RD = cmd[25:21], RS1 = cmd[20:16], RS2 = cmd[15:11], D = cmd[10] (R111). -/
def decode (w : Word) : Decoded :=
  let n := w.toNat
  let rd := regField 21 n
  let rs1 := regField 16 n
  let rs2 := regField 11 n
  let d := bits 10 10 n == 1
  match bits 31 26 n with
  | 0x01 => gate .r3d n (.mpadd d rd rs1 rs2)
  | 0x02 => gate .r3d n (.mpsub d rd rs1 rs2)
  | 0x03 => gate .r2 n (.mpshl1 rd rs1)
  | 0x04 => gate .r2 n (.mpshr1 rd rs1)
  | 0x08 => gate .r3 n (.fmul rd rs1 rs2)
  | 0x09 => gate .r2 n (.fsqr rd rs1)
  | 0x0A => gate .r2 n (.ftom rd rs1)
  | 0x0B => gate .r2 n (.ffromm rd rs1)
  | 0x0C => gate .r2 n (.fcorr rd rs1)
  | 0x10 => gate .r3 n (.fadd rd rs1 rs2)
  | 0x11 => gate .r3 n (.fsub rd rs1 rs2)
  | 0x12 => gate .r2 n (.fneg rd rs1)
  | 0x13 => gate .r2 n (.fhalf rd rs1)
  | 0x18 => gate .r2 n (.finvc rd rs1)
  | 0x19 => gate .r2 n (.finv rd rs1)
  | 0x20 => gate .p3 n (.f2add rd rs1 rs2)
  | 0x21 => gate .p3 n (.f2sub rd rs1 rs2)
  | 0x22 => gate .p2 n (.f2neg rd rs1)
  | 0x23 => gate .p2 n (.f2half rd rs1)
  | 0x24 => gate .p2 n (.f2corr rd rs1)
  | 0x25 => gate .p3 n (.f2mul rd rs1 rs2)
  | 0x26 => gate .p2 n (.f2sqr rd rs1)
  | 0x27 => gate .p2 n (.f2inv rd rs1)
  | 0x28 => gate .p2 n (.f2tom rd rs1)
  | 0x29 => gate .p2 n (.f2fromm rd rs1)
  | _ => .reject .illegalOpcode

/-- The word of a table row whose listed bits are `w` of `nbits` bits, the bits above them 0. A command is one 32-bit word (R110). -/
def tableWord (nbits w : Nat) : Word := BitVec.ofNat 32 (w % 2 ^ nbits)

/-- The command the decoder reads from such a row's bits, none where it rejects the word. -/
def decodeTableWord (nbits w : Nat) : Option Instr :=
  match decode (tableWord nbits w) with
  | .cmd i => some i
  | .reject _ => none

/-- A command word from its fields (R111), RSV = 0. -/
def fieldsWord (op : Nat) (rd rs1 rs2 : Reg) (d : Bool) : Word :=
  BitVec.ofNat 32 (2 ^ 26 * op + 2 ^ 21 * rd.val + 2 ^ 16 * rs1.val + 2 ^ 11 * rs2.val + 2 ^ 10 * (bif d then 1 else 0))

/-- The opcode of a command (R114). -/
def Instr.opcode : Instr → Nat
  | .mpadd _ _ _ _ => 0x01
  | .mpsub _ _ _ _ => 0x02
  | .mpshl1 _ _ => 0x03
  | .mpshr1 _ _ => 0x04
  | .fmul _ _ _ => 0x08
  | .fsqr _ _ => 0x09
  | .ftom _ _ => 0x0A
  | .ffromm _ _ => 0x0B
  | .fcorr _ _ => 0x0C
  | .fadd _ _ _ => 0x10
  | .fsub _ _ _ => 0x11
  | .fneg _ _ => 0x12
  | .fhalf _ _ => 0x13
  | .finvc _ _ => 0x18
  | .finv _ _ => 0x19
  | .f2add _ _ _ => 0x20
  | .f2sub _ _ _ => 0x21
  | .f2neg _ _ => 0x22
  | .f2half _ _ => 0x23
  | .f2corr _ _ => 0x24
  | .f2mul _ _ _ => 0x25
  | .f2sqr _ _ => 0x26
  | .f2inv _ _ => 0x27
  | .f2tom _ _ => 0x28
  | .f2fromm _ _ => 0x29

/-- The format of a command (R114). -/
def Instr.format : Instr → Format
  | .mpadd _ _ _ _ => .r3d
  | .mpsub _ _ _ _ => .r3d
  | .mpshl1 _ _ => .r2
  | .mpshr1 _ _ => .r2
  | .fmul _ _ _ => .r3
  | .fsqr _ _ => .r2
  | .ftom _ _ => .r2
  | .ffromm _ _ => .r2
  | .fcorr _ _ => .r2
  | .fadd _ _ _ => .r3
  | .fsub _ _ _ => .r3
  | .fneg _ _ => .r2
  | .fhalf _ _ => .r2
  | .finvc _ _ => .r2
  | .finv _ _ => .r2
  | .f2add _ _ _ => .p3
  | .f2sub _ _ _ => .p3
  | .f2neg _ _ => .p2
  | .f2half _ _ => .p2
  | .f2corr _ _ => .p2
  | .f2mul _ _ _ => .p3
  | .f2sqr _ _ => .p2
  | .f2inv _ _ => .p2
  | .f2tom _ _ => .p2
  | .f2fromm _ _ => .p2

/-- The mask of a format (R115). -/
def Format.mask : Format → Word
  | .r3 => 0xFC0007FF
  | .r3d => 0xFC0003FF
  | .r2 => 0xFC00FFFF
  | .p3 => 0xFC0007FF
  | .p2 => 0xFC00FFFF

/-- The match value of a command, `OP << 26` (R115). -/
def Instr.matchValue (i : Instr) : Word := BitVec.ofNat 32 (2 ^ 26 * i.opcode)

/-- The command word of a command (R111, R112, R114). -/
def encode (i : Instr) : Word :=
  match i with
  | .mpadd d rd rs1 rs2 => fieldsWord i.opcode rd rs1 rs2 d
  | .mpsub d rd rs1 rs2 => fieldsWord i.opcode rd rs1 rs2 d
  | .mpshl1 rd rs1 => fieldsWord i.opcode rd rs1 0 false
  | .mpshr1 rd rs1 => fieldsWord i.opcode rd rs1 0 false
  | .fmul rd rs1 rs2 => fieldsWord i.opcode rd rs1 rs2 false
  | .fsqr rd rs1 => fieldsWord i.opcode rd rs1 0 false
  | .ftom rd rs1 => fieldsWord i.opcode rd rs1 0 false
  | .ffromm rd rs1 => fieldsWord i.opcode rd rs1 0 false
  | .fcorr rd rs1 => fieldsWord i.opcode rd rs1 0 false
  | .fadd rd rs1 rs2 => fieldsWord i.opcode rd rs1 rs2 false
  | .fsub rd rs1 rs2 => fieldsWord i.opcode rd rs1 rs2 false
  | .fneg rd rs1 => fieldsWord i.opcode rd rs1 0 false
  | .fhalf rd rs1 => fieldsWord i.opcode rd rs1 0 false
  | .finvc rd rs1 => fieldsWord i.opcode rd rs1 0 false
  | .finv rd rs1 => fieldsWord i.opcode rd rs1 0 false
  | .f2add rd rs1 rs2 => fieldsWord i.opcode rd rs1 rs2 false
  | .f2sub rd rs1 rs2 => fieldsWord i.opcode rd rs1 rs2 false
  | .f2neg rd rs1 => fieldsWord i.opcode rd rs1 0 false
  | .f2half rd rs1 => fieldsWord i.opcode rd rs1 0 false
  | .f2corr rd rs1 => fieldsWord i.opcode rd rs1 0 false
  | .f2mul rd rs1 rs2 => fieldsWord i.opcode rd rs1 rs2 false
  | .f2sqr rd rs1 => fieldsWord i.opcode rd rs1 0 false
  | .f2inv rd rs1 => fieldsWord i.opcode rd rs1 0 false
  | .f2tom rd rs1 => fieldsWord i.opcode rd rs1 0 false
  | .f2fromm rd rs1 => fieldsWord i.opcode rd rs1 0 false

end Sys2Proof
end

