-- ==== Sys2Proof/Config.lean ====
section
/-! DEFINITION. What a build of CORE fixes (00_scope.md R7, R8, R12), the identification constants
(10_state.md R45, R47), and the free values: what the spec leaves open at a point where the machine goes on. -/

namespace Sys2Proof

/-- The permitted word widths `w` (R7: "The permitted values are 8, 16, 32 and 64"). -/
inductive WordBits where
  | w8
  | w16
  | w32
  | w64
  deriving DecidableEq, Repr

/-- The build parameters of one instantiation (R7, R8): `w` and the number `W` of words in an element.
Entry 1: they are held in the state, which no step changes, so that a statement over every state is a statement over every build. -/
structure Build where
  /-- `w` (R7). -/
  wordBits : WordBits
  /-- `W` (R8). -/
  words : Nat
  deriving DecidableEq, Repr

/-- NREG (R12). -/
def Config.nreg : Nat := 32

/-- CHAIN_MAX (R12). -/
def Config.chainMax : Nat := 256

/-- NPOW_MAX (R12). -/
def Config.npowMax : Nat := 16

/-- The value of ID (R45): "SF", command-set version 1. -/
def Config.idWord : Word := 0x53460001

/-- DESIGN CHOICE (entry 1): the build that `State.reset` has, the spec's toy instantiation (R13) w = 8, W = 2.
`State.resetOf` gives the reset state of every other build. -/
def Config.build : Build := ⟨.w8, 2⟩

/-- Free values (entry 6, R291): whether the `n`-th access presented while `rst_n` = 0 gets a response at all. -/
opaque Config.resetReady : Nat → Bool

/-- Free value (entry 6, R291): whether that response is an error response. -/
opaque Config.resetErr : Nat → Bool

/-- Free value (entry 6, R291, 93_implementation_defined.md 93-10): the data of that response if the access is a read. -/
opaque Config.resetData : Nat → Word

end Sys2Proof
end

