-- ==== Sys2Proof/Machine/State.lean ====
section
/-! DEFINITION. The state of CORE as plain data (10_state.md R30 to R55) and its value after reset (R53). -/

namespace Sys2Proof.Machine

/-- MontgomeryConstants (10_state.md R33 to R35). An element value is a number; that it is below 2^(w*W), and PPRIME
below 2^w, is the invariant `State.Inv` (entry 10). -/
structure Constants where
  /-- P, `w*W` bits (R33). -/
  p : Nat
  /-- R2, `w*W` bits (R35). -/
  r2 : Nat
  /-- PPRIME, `w` bits (R34). -/
  pprime : Nat
  deriving DecidableEq, Repr

/-- One CHAIN_STEP register (R38); its reserved bits [31:24] are no storage. -/
structure ChainStep where
  /-- K, bits [15:0]: the number of squarings. -/
  k : BitVec 16
  /-- J, bits [23:16]: the power to multiply by, 0xFF = no multiply. -/
  j : BitVec 8
  deriving DecidableEq, Repr

/-- InversionChainTable: CHAIN_CFG (R37) and CHAIN_STEP[0..255] (R38). -/
structure ChainTable where
  /-- NPOW, CHAIN_CFG[7:0]. -/
  npow : BitVec 8
  /-- J0, CHAIN_CFG[15:8]. -/
  j0 : BitVec 8
  /-- NSTEPS, CHAIN_CFG[31:16]. -/
  nsteps : BitVec 16
  /-- CHAIN_STEP[i], i < CHAIN_MAX. -/
  steps : Vector ChainStep 256
  deriving DecidableEq, Repr

/-- CTRL (R40); bits 31:3 read 0. -/
structure Ctrl where
  /-- Bit 0. -/
  lock : Bool
  /-- Bit 1. -/
  ieDone : Bool
  /-- Bit 2. -/
  ieErr : Bool
  deriving DecidableEq, Repr

/-- STATUS (R41) but for BUSY, which is the view `State.busy` of the engine (entry 5). -/
structure Status where
  /-- Bit 1. -/
  done : Bool
  /-- Bit 2. -/
  err : Bool
  /-- Bit 3, the only flag of CORE (R42). -/
  c : Bool
  /-- Bits 15:8; `none` is the code 0x00 (60_exceptions.md R263). -/
  errcode : Option RejectCode
  deriving DecidableEq, Repr

/-- What an accepted command leaves at its completion (60_exceptions.md R261): its destinations with the values to be
written, and C for the commands that write it. The values are fixed when the sources are sampled, at acceptance
(20_memory.md R86), and are a function of those samples alone (10_state.md R50): this takes the place of the snapshot and
of the scratch of R49, which the spec calls invisible (entry 4). -/
structure Result where
  /-- Destination registers and their new values. -/
  dests : List (Reg × Nat)
  /-- C, if the command writes it (R42). -/
  carry : Option Bool
  deriving DecidableEq, Repr

/-- A host access as the ports present it (20_memory.md R70). -/
structure Access where
  /-- `bus_write`. -/
  write : Bool
  /-- `bus_addr`, a byte offset in the 8 KiB register space (R71). -/
  addr : BitVec 13
  /-- `bus_strb`: byte-lane enables of a write, access size of a read; all ones = 32-bit. -/
  strb : BitVec 4
  /-- `bus_wdata`. -/
  wdata : Word
  deriving DecidableEq, Repr

/-- The response to an access (R70, R80). -/
structure Response where
  /-- `bus_err`: SLVERR. -/
  err : Bool
  /-- `bus_rdata`; a write has none. -/
  rdata : Option Word
  deriving DecidableEq, Repr

/-- What happens in one step (entry 3). -/
inductive Event where
  /-- The host performs an access (R84). -/
  | access (a : Access)
  /-- The engine's turn: a command in flight completes (20_memory.md R85); an idle engine changes nothing (R277). -/
  | engine
  /-- A rising clock edge with `rst_n` = 0 (R290), and the access the host wrongly presents at it, if any (R291). -/
  | reset (a : Option Access)
  deriving DecidableEq, Repr

/-- The state of CORE. -/
structure State where
  /-- The build parameters w and W, which nothing changes (00_scope.md R7, R8; entry 1). -/
  build : Build
  /-- F0 to F31 (R31). -/
  f : Vector Nat 32
  /-- P, R2 and PPRIME (R33 to R35). -/
  consts : Constants
  /-- The chain table (R37, R38). -/
  chain : ChainTable
  /-- CTRL (R40). -/
  ctrl : Ctrl
  /-- STATUS (R41). -/
  status : Status
  /-- The command in flight; BUSY = 1 exactly when there is one (R43). -/
  engine : Option Result
  /-- The response of the access performed in the last step, if that step performed one (R70; entry 8). -/
  resp : Option Response
  /-- MODEL'S OWN: what happens next, oldest first (entry 3). -/
  script : List Event
  /-- MODEL'S OWN: the number of the next free value (entry 6). -/
  fresh : Nat
  deriving DecidableEq, Repr

/-- The reasons the machine stops with a fault: none. CORE has no execution-time fault (60_exceptions.md R260: "There are
no arithmetic exceptions, overflow traps or execution-time faults"; R268). Nobody raises one. -/
inductive Fault where
  deriving DecidableEq, Repr

/-- The reasons an instruction has no meaning. -/
inductive Refusal where
  /-- Raised by an arm of `exec` whose instruction has no meaning yet, and by nothing else: no arm raises it in this
  model. It would be safe: the model stops where the hardware goes on. -/
  | notModelled (mnemonic : String)
  deriving DecidableEq, Repr

/-- The chain table after reset. DESIGN CHOICE (entry 2): the spec gives none ("unspecified", R53); every bit is 0. -/
def ChainTable.reset : ChainTable := ⟨0, 0, 0, Vector.replicate 256 ⟨0, 0⟩⟩

/-- The state right after reset of a build `b` (R53, 70_reset_and_hazards.md R290): CTRL = 0, STATUS = 0, the engine idle.
DESIGN CHOICE (entry 2): F, P, R2, PPRIME and the chain table, which the spec leaves unspecified, hold 0. -/
def State.resetOf (b : Build) : State :=
  { build := b
    f := Vector.replicate 32 0
    consts := ⟨0, 0, 0⟩
    chain := ChainTable.reset
    ctrl := ⟨false, false, false⟩
    status := ⟨false, false, false, none⟩
    engine := none
    resp := none
    script := []
    fresh := 0 }

/-- The state right after reset, of the build `Config.build` (entry 1). -/
def State.reset : State := State.resetOf Config.build

end Sys2Proof.Machine
end

