-- ==== Sys2Proof/Machine/Operands.lean ====
section
/-! DEFINITION. Widths, registers and operand forms: the sizes a build fixes, the register file, the single, pair and
double-width operands (10_state.md R31, R32; 30_encoding.md R113), and the 32-bit limbs of a value (20_memory.md R73, R75). -/

namespace Sys2Proof

/-- `w` in bits (00_scope.md R7). -/
def WordBits.bits : WordBits → Nat
  | .w8 => 8
  | .w16 => 16
  | .w32 => 32
  | .w64 => 64

/-- `w` (R7). -/
def Build.w (b : Build) : Nat := b.wordBits.bits

/-- `w*W`, the width of an element (R8). -/
def Build.elemBits (b : Build) : Nat := b.w * b.words

/-- The Montgomery radix R = 2^(w*W) (R10). -/
def Build.radix (b : Build) : Nat := 2 ^ b.elemBits

/-- L, the 32-bit limbs of an element (R12): ceil(w*W/32). -/
def Build.limbs (b : Build) : Nat := (b.elemBits + 31) / 32

/-- The bounds on a build (R8): 1 <= W and w*W <= 1024. -/
def Build.wf (b : Build) : Bool := decide (1 ≤ b.words) && decide (b.elemBits ≤ 1024)

end Sys2Proof

namespace Sys2Proof.Machine

/-- `F[r]` (00_scope.md R15). -/
def State.reg (s : State) (r : Reg) : Nat := s.f[r.val]

/-- `F[r] <- v` (R15). -/
def State.setReg (s : State) (r : Reg) (v : Nat) : State := { s with f := s.f.set r.val v }

/-- r + 1, the second register of the pair that r names (10_state.md R32). -/
def pairMate (r : Reg) : Reg := r + 1

/-- An index that cannot name a pair (60_exceptions.md R264). -/
def oddReg (r : Reg) : Bool := r.val % 2 == 1

/-- `Fp2[r]`, the GF(p²) operand (F[r], F[r+1]) (R15, R32). -/
def State.pair (s : State) (r : Reg) : Nat × Nat := (s.reg r, s.reg (pairMate r))

/-- The double-width operand `{F[r+1], F[r]}`, F[r] the low half (R32, R113). -/
def State.double (s : State) (r : Reg) : Nat := s.reg (pairMate r) * s.build.radix + s.reg r

/-- The operand of MPADD and MPSUB: F[r], or the double-width operand when D = 1 (40_multiprecision.md R141). -/
def State.mpOperand (s : State) (double : Bool) (r : Reg) : Nat := bif double then s.double r else s.reg r

/-- The width in bits of that operand: w*n with n = W, or n = 2W when D = 1 (R140). -/
def mpBits (b : Build) (double : Bool) : Nat := bif double then 2 * b.elemBits else b.elemBits

/-- One destination register. -/
def destOne (rd : Reg) (v : Nat) : List (Reg × Nat) := [(rd, v)]

/-- A destination pair: F[RD] <- c0; F[RD+1] <- c1 (44_gfp2.md R231). -/
def destPair (rd : Reg) (c : Nat × Nat) : List (Reg × Nat) := [(rd, c.1), (pairMate rd, c.2)]

/-- The destination of MPADD and MPSUB: F[RD] <- res, or F[RD] <- res mod R; F[RD+1] <- res div R when D = 1 (R141). -/
def destMp (b : Build) (double : Bool) (rd : Reg) (res : Nat) : List (Reg × Nat) :=
  bif double then destPair rd (res % b.radix, res / b.radix) else destOne rd res

/-- Limb k of a value, `bits[32*k+31 : 32*k]` (20_memory.md R73). -/
def limb (k x : Nat) : Nat := x / 2 ^ (32 * k) % 2 ^ 32

/-- A value with limb k replaced by a 32-bit word: the limbs below it, the word, the limbs above it. -/
def setLimb (k : Nat) (v : Word) (x : Nat) : Nat :=
  x % 2 ^ (32 * k) + 2 ^ (32 * k) * v.toNat + 2 ^ (32 * (k + 1)) * (x / 2 ^ (32 * (k + 1)))

/-- What slot k of an element window reads (R73): limb k of the value for k < L, bits at or above w*W reading 0, and 0 for
k >= L. -/
def slotRead (b : Build) (k x : Nat) : Word :=
  if k < b.limbs then BitVec.ofNat 32 (limb k (x % b.radix)) else 0

/-- A write to slot k of an element window (R73): limb k replaced for k < L, bits at or above w*W ignored; a slot k >= L
ignores it. -/
def slotWrite (b : Build) (k : Nat) (v : Word) (x : Nat) : Nat :=
  if k < b.limbs then setLimb k v x % b.radix else x

/-- PPRIME_LO (k = 0) and PPRIME_HI (k = 1) as they read: bits at or above w read 0 (R74). -/
def pprimeRead (b : Build) (k x : Nat) : Word := BitVec.ofNat 32 (limb k (x % 2 ^ b.w))

/-- A write to PPRIME_LO (k = 0) or PPRIME_HI (k = 1): bits at or above w are ignored (R74). -/
def pprimeWrite (b : Build) (k : Nat) (v : Word) (x : Nat) : Nat := setLimb k v x % 2 ^ b.w

end Sys2Proof.Machine
end

