-- ==== Sys2Proof/Machine/Datapath.lean ====
section
/-! DEFINITION. The datapath functions, each defined once and used by every command rule by name (00_scope.md R17):
MontRed, MontMul and Corr (41_montgomery.md R161 to R163), ModAdd, ModSub, ModNeg and Half (42_field_addsub.md R190 to
R193), Chain and Inv (43_inversion.md R211 to R213). Values are mathematical integers (R14); where the spec selects with a
mask from a borrow bit, the value is that of the if it states beside the mask (R170 is about timing, entry 12). -/

namespace Sys2Proof.Machine

/-- `word(x, i)` (00_scope.md R14). -/
def wordAt (b : Build) (x i : Nat) : Nat := x / 2 ^ (b.w * i) % 2 ^ b.w

/-- Step i of the word-serial reduction (R161): m_i <- (word(T, i) * PPRIME) mod 2^w; T <- T + m_i * P * 2^(w*i). -/
def montRedStep (b : Build) (k : Constants) (i t : Nat) : Nat :=
  t + wordAt b t i * k.pprime % 2 ^ b.w * k.p * 2 ^ (b.w * i)

/-- The first n steps of the reduction, low word first (R161). -/
def montRedLoop (b : Build) (k : Constants) : Nat → Nat → Nat
  | 0, t => t
  | n + 1, t => montRedStep b k n (montRedLoop b k n t)

/-- `MontRed(T)` (R161): W steps, then (T div R) mod R. -/
def montRed (b : Build) (k : Constants) (t : Nat) : Nat := montRedLoop b k b.words t / b.radix % b.radix

/-- `MontMul(a, b) = MontRed(a * b)` (R162). -/
def montMul (b : Build) (k : Constants) (x y : Nat) : Nat := montRed b k (x * y)

/-- One conditional-subtraction stage of Corr (R163): x - P unless that borrows. -/
def corrStage (k : Constants) (x : Nat) : Nat := if x < k.p then x else x - k.p

/-- `Corr(x)`: always two stages (R163). -/
def corr (k : Constants) (x : Nat) : Nat := corrStage k (corrStage k x)

/-- `ModAdd(a, b)` (R190): s = a + b exactly; s - 2P unless that borrows; mod R. -/
def modAdd (b : Build) (k : Constants) (x y : Nat) : Nat :=
  (if x + y < 2 * k.p then x + y else x + y - 2 * k.p) % b.radix

/-- `ModSub(a, b)` (R191): d = a - b exactly; d + 2P if it borrows; mod R. -/
def modSub (b : Build) (k : Constants) (x y : Nat) : Nat :=
  let d : Int := (x : Int) - (y : Int)
  ((if d < 0 then d + 2 * (k.p : Int) else d) % (b.radix : Int)).toNat

/-- `ModNeg(a) = ModSub(0, a)` (R192). -/
def modNeg (b : Build) (k : Constants) (x : Nat) : Nat := modSub b k 0 x

/-- `Half(a)` (R193): P is added to an odd a; the carry of the addition becomes the top bit. -/
def half (b : Build) (k : Constants) (x : Nat) : Nat :=
  (if x % 2 = 1 then x + k.p else x) / 2 % b.radix

/-- The chain table is valid (10_state.md R39). NPOW_MAX = 16, CHAIN_MAX = 256. -/
def ChainTable.valid (t : ChainTable) : Bool :=
  decide (1 ≤ t.npow.toNat) && decide (t.npow.toNat ≤ Config.npowMax)
    && decide (t.j0.toNat < t.npow.toNat)
    && decide (t.nsteps.toNat ≤ Config.chainMax)
    && (t.steps.toList.take t.nsteps.toNat).all (fun st => decide (st.j.toNat < t.npow.toNat) || st.j == 0xFF)

/-- The odd powers from `pw[j] = x` on, n more of them: pw[j+1] = MontMul(pw[j], sq) (43_inversion.md R211). -/
def powers (b : Build) (k : Constants) (sq : Nat) : Nat → Nat → List Nat
  | 0, x => [x]
  | n + 1, x => x :: powers b k sq n (montMul b k x sq)

/-- The table of precomputed odd powers pw[0..NPOW-1] (R211). -/
def powerTable (b : Build) (k : Constants) (t : ChainTable) (a : Nat) : List Nat :=
  powers b k (montMul b k a a) (t.npow.toNat - 1) a

/-- `pw[j]`. The index of a valid table is in range (R39), and an inversion runs only with a valid table (R265); the value
0 past the end is never used (entry 14). -/
def powerAt (pw : List Nat) (j : Nat) : Nat := pw.getD j 0

/-- n squarings of the accumulator (R212). -/
def squarings (b : Build) (k : Constants) : Nat → Nat → Nat
  | 0, acc => acc
  | n + 1, acc => squarings b k n (montMul b k acc acc)

/-- One chain step (R212): K squarings, then a multiplication by pw[J] unless J = 0xFF. -/
def chainStep (b : Build) (k : Constants) (pw : List Nat) (acc : Nat) (st : ChainStep) : Nat :=
  let sq := squarings b k st.k.toNat acc
  if st.j = 0xFF then sq else montMul b k sq (powerAt pw st.j.toNat)

/-- `Chain(a)` (R212): from pw[J0], the steps 0 to NSTEPS-1 of the table in order. -/
def chain (b : Build) (k : Constants) (t : ChainTable) (a : Nat) : Nat :=
  let pw := powerTable b k t a
  (t.steps.toList.take t.nsteps.toNat).foldl (chainStep b k pw) (powerAt pw t.j0.toNat)

/-- `Inv(a)` (R213): the chain, two squarings, and a multiplication by a. -/
def inv (b : Build) (k : Constants) (t : ChainTable) (a : Nat) : Nat :=
  let t0 := chain b k t a
  let t1 := montMul b k t0 t0
  let t2 := montMul b k t1 t1
  montMul b k t2 a

end Sys2Proof.Machine
end

