-- ==== Sys2Proof/Machine/Flags.lean ====
section
/-! DEFINITION. The flag C (10_state.md R42; 40_multiprecision.md R141 to R144), BUSY, the words CTRL and STATUS read as
(R40, R41), the rejection codes' numbers (60_exceptions.md R263) and the interrupt output (R54). -/

namespace Sys2Proof.Machine

/-- Carry-out of an addition of `n` bits: s div 2^n for the exact sum s = a + b (R141). -/
def carryOut (n a b : Nat) : Bool := (a + b) / 2 ^ n != 0

/-- Borrow-out of a subtraction: 1 exactly when a < b (R142). -/
def borrowOut (a b : Nat) : Bool := decide (a < b)

/-- The bit MPSHL1 shifts out: the top bit of an element (R143). -/
def topBitOut (b : Build) (a : Nat) : Bool := a / 2 ^ (b.elemBits - 1) % 2 == 1

/-- The bit MPSHR1 shifts out: bit 0 (R144). -/
def lowBitOut (a : Nat) : Bool := a % 2 == 1

/-- STATUS.BUSY: an accepted command is executing (R41, R43; entry 5). -/
def State.busy (s : State) : Bool := s.engine.isSome

/-- The number of a rejection code (R263). -/
def codeNumber : RejectCode → Nat
  | .illegalOpcode => 0x01
  | .reservedBits => 0x02
  | .misalignedPair => 0x03
  | .notLocked => 0x04
  | .busy => 0x05
  | .badChain => 0x06

/-- ERRCODE: 0x00 when no rejection is recorded (R263). -/
def errcodeNumber : Option RejectCode → Nat
  | none => 0x00
  | some c => codeNumber c

/-- The word CTRL reads as (R40). -/
def ctrlWord (c : Ctrl) : Word :=
  BitVec.ofNat 32 (c.lock.toNat + 2 * c.ieDone.toNat + 4 * c.ieErr.toNat)

/-- The word STATUS reads as (R41). -/
def State.statusWord (s : State) : Word :=
  BitVec.ofNat 32 (s.busy.toNat + 2 * s.status.done.toNat + 4 * s.status.err.toNat + 8 * s.status.c.toNat
    + 256 * errcodeNumber s.status.errcode)

/-- `irq = (STATUS.DONE and CTRL.IE_DONE) or (STATUS.ERR and CTRL.IE_ERR)` (R54). -/
def State.irq (s : State) : Bool := (s.status.done && s.ctrl.ieDone) || (s.status.err && s.ctrl.ieErr)

/-- The effect of a write to CTRL (20_memory.md R78): LOCK can be set and not cleared; bits 31:3 are ignored (R40). -/
def ctrlWrite (v : Word) (c : Ctrl) : Ctrl :=
  { lock := c.lock || v.getLsbD 0, ieDone := v.getLsbD 1, ieErr := v.getLsbD 2 }

/-- The effect of a write to STATUS (R41, R43, R44): 1 in bit 1 clears DONE; 1 in bit 2 clears ERR and ERRCODE; BUSY and C
never change. This is the spec's "trap return" (60_exceptions.md R271). A write at the same instant as a completion is performed
before it (entry 7). -/
def statusWrite (v : Word) (st : Status) : Status :=
  { done := st.done && !v.getLsbD 1
    err := st.err && !v.getLsbD 2
    c := st.c
    errcode := bif v.getLsbD 2 then none else st.errcode }

end Sys2Proof.Machine
end

