-- ==== Sys2Proof/Machine/Ops.lean ====
section
/-! DEFINITION. The life of a command: rejection (CORE's exception, 60_exceptions.md R262, R270), acceptance and
completion (R261, 10_state.md R43), the checks before and after decoding (R261, R266), and reset (R290). -/

namespace Sys2Proof.Machine

/-- A rejection with a code (10_state.md R44; 60_exceptions.md R262): the first error wins, and nothing else changes. -/
def reject (c : RejectCode) (s : State) : State :=
  if s.status.err then s
  else { s with status := { s.status with err := true, errcode := some c } }

/-- Acceptance (R261 item 5, R43): BUSY <- 1, DONE <- 0; the sources are sampled now, so the results are those of this
state (20_memory.md R86). -/
def accept (r : Result) (s : State) : State :=
  { s with engine := some r, status := { s.status with done := false } }

/-- Writes the destinations in order. -/
def writeDests (ds : List (Reg × Nat)) (s : State) : State :=
  ds.foldl (fun s d => s.setReg d.1 d.2) s

/-- Completion (R261 item 5, R43, R42, R85): every destination and, if the command writes it, C, at the instant that BUSY
falls and DONE rises; the engine keeps nothing (R50). -/
def complete (r : Result) (s : State) : State :=
  let s1 := writeDests r.dests s
  { s1 with
    engine := none
    status := { s1.status with done := true, c := r.carry.getD s1.status.c } }

/-- The engine's turn: a command in flight completes; an idle engine changes nothing (R268, R277). -/
def engineTurn (s : State) : State :=
  match s.engine with
  | none => s
  | some r => complete r s

/-- The checks of R261 for a command, in the order of R266, as far as they depend on the command once decoded: BUSY,
NOT_LOCKED, MISALIGNED_PAIR for the register fields that name pairs, BAD_CHAIN for the inversion commands. The first three
repeat what `frontEnd` checks, so that a command means the same whoever presents it (entry 9). -/
def admission (s : State) (pairs : List Reg) (usesChain : Bool) : Option RejectCode :=
  if s.busy then some .busy
  else if !s.ctrl.lock then some .notLocked
  else if pairs.any oddReg then some .misalignedPair
  else if usesChain && !s.chain.valid then some .badChain
  else none

/-- Presents a command with its result: rejected with the first failing check, or accepted (R261). -/
def issue (s : State) (pairs : List Reg) (usesChain : Bool) (r : Result) : Host.Outcome State Fault Refusal :=
  match admission s pairs usesChain with
  | some c => .next (reject c s)
  | none => .next (accept r s)

/-- A command with one destination register that leaves C unchanged. -/
def fieldResult (rd : Reg) (v : Nat) : Result := ⟨destOne rd v, none⟩

/-- A command with a destination pair that leaves C unchanged. -/
def pairResult (rd : Reg) (c : Nat × Nat) : Result := ⟨destPair rd c, none⟩

/-- What becomes of a word written to CMD before a command's own checks (R261 items 1 to 3). -/
inductive FrontEnd where
  | reject (c : RejectCode)
  | run (i : Instr)
  deriving DecidableEq, Repr

/-- R261 items 1 to 3, in order: BUSY, NOT_LOCKED, then Decode. -/
def frontEnd (w : Word) (s : State) : FrontEnd :=
  if s.busy then .reject .busy
  else if !s.ctrl.lock then .reject .notLocked
  else
    match decode w with
    | .reject c => .reject c
    | .cmd i => .run i

/-- The response, left open by the spec, to an access presented while rst_n = 0 (70_reset_and_hazards.md R291, entry 6):
free values; a write's response carries no data. -/
def resetResponse (a : Access) (n : Nat) : Option Response :=
  if Config.resetReady n then some ⟨Config.resetErr n, if a.write then none else some (Config.resetData n)⟩ else none

/-- A rising clock edge with rst_n = 0 (R290): the state after reset; a command in flight is abandoned; an access
presented at that edge has no effect (R291). What is to happen next (`script`) stays, and so does the build. -/
def resetEdge (a : Option Access) (s : State) : State :=
  match a with
  | none => { State.resetOf s.build with script := s.script, fresh := s.fresh }
  | some acc =>
    { State.resetOf s.build with script := s.script, resp := resetResponse acc s.fresh, fresh := s.fresh + 1 }

/-- The step's own bookkeeping (entries 3, 8): the event is taken from the script, and no access has been performed yet. -/
def takeEvent (rest : List Event) (s : State) : State := { s with script := rest, resp := none }

end Sys2Proof.Machine
end

