-- ==== Sys2Proof/Machine/Bus.lean ====
section
/-! DEFINITION. The host's accesses (20_memory.md): the register map R72, well-formed accesses R76, error responses R80 to
R83, what reads return R77 and what writes do R78, all as views of the registers (entry 13); and how a command word comes to be the next thing performed (entry 11). -/

namespace Sys2Proof.Machine

/-- What an offset names (R72): a register, or slot k of an element window (R73). -/
inductive Target where
  | id
  | cfg0
  | cfg1
  | ctrl
  | status
  | cmd
  | chainCfg
  | pprimeLo
  | pprimeHi
  | p (k : Nat)
  | r2 (k : Nat)
  | chainStep (i : Fin 256)
  | f (r : Reg) (k : Nat)
  | unmapped
  deriving DecidableEq, Repr

/-- The register map (R72) on word-aligned offsets; the holes are unmapped (R81). -/
def targetOf (addr : BitVec 13) : Target :=
  let n := addr.toNat
  if n < 0x0080 then
    match n with
    | 0x0000 => .id
    | 0x0004 => .cfg0
    | 0x0008 => .cfg1
    | 0x0010 => .ctrl
    | 0x0014 => .status
    | 0x0018 => .cmd
    | 0x0020 => .chainCfg
    | 0x0028 => .pprimeLo
    | 0x002C => .pprimeHi
    | _ => .unmapped
  else if n < 0x0100 then .p ((n - 0x0080) / 4)
  else if n < 0x0180 then .r2 ((n - 0x0100) / 4)
  else if n < 0x0400 then .unmapped
  else if n < 0x0800 then .chainStep (Fin.ofNat 256 ((n - 0x0400) / 4))
  else if n < 0x1000 then .unmapped
  else .f (Fin.ofNat 32 ((n - 0x1000) / 0x80)) (n % 0x80 / 4)

/-- A malformed access (R76): not aligned, or not all four byte lanes. -/
def Access.malformed (a : Access) : Bool := a.addr.toNat % 4 != 0 || a.strb != 0xF

/-- An access that is refused by its target (R80): unmapped (R81), an F window while BUSY (R82), a write to the constants
or the chain table while LOCK (R83).
DESIGN CHOICE (entry 16): a write to a slot k >= L of the P or R2 window while LOCK = 1 is refused like one to a limb. The
spec leaves it open: R73 and R81 have such a slot respond OKAY, R80 and R83 have any write to P or R2 get SLVERR. Either
way nothing is written. -/
def refusedAt (write : Bool) (t : Target) (s : State) : Bool :=
  match t with
  | .unmapped => true
  | .f _ _ => s.busy
  | .p _ => write && s.ctrl.lock
  | .r2 _ => write && s.ctrl.lock
  | .pprimeLo => write && s.ctrl.lock
  | .pprimeHi => write && s.ctrl.lock
  | .chainCfg => write && s.ctrl.lock
  | .chainStep _ => write && s.ctrl.lock
  | .id => false
  | .cfg0 => false
  | .cfg1 => false
  | .ctrl => false
  | .status => false
  | .cmd => false

/-- CFG0 (10_state.md R46): w, W, NREG, L. -/
def cfg0Word (b : Build) : Word :=
  BitVec.ofNat 32 (2 ^ 16 * Config.nreg + 2 ^ 24 * b.limbs + 2 ^ 8 * b.words + b.w)

/-- CFG1 (R47): CHAIN_MAX, NPOW_MAX. -/
def cfg1Word : Word := BitVec.ofNat 32 (Config.chainMax + 2 ^ 16 * Config.npowMax)

/-- The word CHAIN_CFG reads as (R37). -/
def chainCfgWord (t : ChainTable) : Word :=
  BitVec.ofNat 32 (t.npow.toNat + 2 ^ 8 * t.j0.toNat + 2 ^ 16 * t.nsteps.toNat)

/-- The word CHAIN_STEP[i] reads as (R38): bits [31:24] read 0. -/
def chainStepWord (st : ChainStep) : Word := BitVec.ofNat 32 (st.k.toNat + 2 ^ 16 * st.j.toNat)

/-- A write to CHAIN_CFG (R37). -/
def chainCfgWrite (v : Word) (t : ChainTable) : ChainTable :=
  { t with
    npow := BitVec.ofNat 8 (bits 7 0 v.toNat)
    j0 := BitVec.ofNat 8 (bits 15 8 v.toNat)
    nsteps := BitVec.ofNat 16 (bits 31 16 v.toNat) }

/-- The step register a write to CHAIN_STEP[i] leaves (R38): bits [31:24] are ignored. -/
def chainStepOf (v : Word) : ChainStep :=
  ⟨BitVec.ofNat 16 (bits 15 0 v.toNat), BitVec.ofNat 8 (bits 23 16 v.toNat)⟩

/-- The data of a read (R77); CMD reads 0 (10_state.md R48), and so does an unmapped offset (R81). -/
def readData (t : Target) (s : State) : Word :=
  match t with
  | .id => Config.idWord
  | .cfg0 => cfg0Word s.build
  | .cfg1 => cfg1Word
  | .ctrl => ctrlWord s.ctrl
  | .status => s.statusWord
  | .cmd => 0
  | .chainCfg => chainCfgWord s.chain
  | .pprimeLo => pprimeRead s.build 0 s.consts.pprime
  | .pprimeHi => pprimeRead s.build 1 s.consts.pprime
  | .p k => slotRead s.build k s.consts.p
  | .r2 k => slotRead s.build k s.consts.r2
  | .chainStep i => chainStepWord s.chain.steps[i.val]
  | .f r k => slotRead s.build k (s.reg r)
  | .unmapped => 0

/-- The effect of a write on the registers (R78). A write to CMD has none of its own: it presents a command. -/
def writeTarget (t : Target) (v : Word) (s : State) : State :=
  match t with
  | .id => s
  | .cfg0 => s
  | .cfg1 => s
  | .ctrl => { s with ctrl := ctrlWrite v s.ctrl }
  | .status => { s with status := statusWrite v s.status }
  | .cmd => s
  | .chainCfg => { s with chain := chainCfgWrite v s.chain }
  | .pprimeLo => { s with consts := { s.consts with pprime := pprimeWrite s.build 0 v s.consts.pprime } }
  | .pprimeHi => { s with consts := { s.consts with pprime := pprimeWrite s.build 1 v s.consts.pprime } }
  | .p k => { s with consts := { s.consts with p := slotWrite s.build k v s.consts.p } }
  | .r2 k => { s with consts := { s.consts with r2 := slotWrite s.build k v s.consts.r2 } }
  | .chainStep i => { s with chain := { s.chain with steps := s.chain.steps.set i.val (chainStepOf v) } }
  | .f r k => s.setReg r (slotWrite s.build k v (s.reg r))
  | .unmapped => s

/-- The response SLVERR (R80): a read returns 0. -/
def slverr (a : Access) : Response := ⟨true, if a.write then none else some 0⟩

/-- The response OKAY to a write. -/
def okayWrite : Response := ⟨false, none⟩

/-- The response OKAY to a read, with its data. -/
def okayRead (v : Word) : Response := ⟨false, some v⟩

/-- The state with the response of the access just performed. -/
def State.respond (s : State) (r : Response) : State := { s with resp := some r }

/-- What an access comes to: it is done, or its CMD write, answered OKAY (R78), presents a command word. -/
inductive BusResult where
  | done (s : State)
  | command (w : Word) (s : State)
  deriving DecidableEq, Repr

/-- An access gets SLVERR exactly when it is malformed or refused (R80). -/
def Access.failing (a : Access) (s : State) : Bool := a.malformed || refusedAt a.write (targetOf a.addr) s

/-- The host performs an access (R76 to R83). -/
def busAccess (a : Access) (s : State) : BusResult :=
  if a.failing s then .done (s.respond (slverr a))
  else if a.write then
    (if targetOf a.addr = .cmd then .command a.wdata (s.respond okayWrite)
     else .done ((writeTarget (targetOf a.addr) a.wdata s).respond okayWrite))
  else .done (s.respond (okayRead (readData (targetOf a.addr) s)))

/-- The full 32-bit write of a word to CMD (R48, R76). -/
def cmdWrite (w : Word) : Access := ⟨true, 0x0018, 0xF, w⟩

/-- Whether a command word is an inversion command's, which runs only with a valid chain table (60_exceptions.md R265). -/
def usesChainWord (w : Word) : Bool :=
  match decode w with
  | .cmd (.finvc _ _) => true
  | .cmd (.finv _ _) => true
  | .cmd (.f2inv _ _) => true
  | _ => false

/-- The chain table a word's command can run with: the one there is, or, for an inversion command where that one is not
valid, the same steps under CHAIN_CFG = 0x0000_0001 (95_test_vectors.md 3.4: valid, NSTEPS = 0, E = 1). -/
def runnableChain (w : Word) (t : ChainTable) : ChainTable :=
  if usesChainWord w && !t.valid then chainCfgWrite 0x00000001 t else t

/-- The state in which the very next step performs the CMD write of `w` and the command is run (entry 11): what the host
would have done before is taken as done: the engine idle, LOCK set, and for an inversion command a valid chain table. -/
def loadCommand (w : Word) (s : State) : State :=
  { s with
    script := .access (cmdWrite w) :: s.script
    engine := none
    ctrl := { s.ctrl with lock := true }
    chain := runnableChain w s.chain }

end Sys2Proof.Machine
end

