-- ==== Sys2Proof/Machine/AddSub.lean ====
section
/-! DEFINITION. The modular adder/subtractor's commands (42_field_addsub.md R195 to R198). None writes a flag. -/

namespace Sys2Proof.Machine

/-- FADD (R195). -/
def execFadd (rd rs1 rs2 : Reg) (s : State) : Host.Outcome State Fault Refusal :=
  issue s [] false (fieldResult rd (modAdd s.build s.consts (s.reg rs1) (s.reg rs2)))

/-- FSUB (R196). -/
def execFsub (rd rs1 rs2 : Reg) (s : State) : Host.Outcome State Fault Refusal :=
  issue s [] false (fieldResult rd (modSub s.build s.consts (s.reg rs1) (s.reg rs2)))

/-- FNEG (R197). -/
def execFneg (rd rs1 : Reg) (s : State) : Host.Outcome State Fault Refusal :=
  issue s [] false (fieldResult rd (modNeg s.build s.consts (s.reg rs1)))

/-- FHALF (R198). -/
def execFhalf (rd rs1 : Reg) (s : State) : Host.Outcome State Fault Refusal :=
  issue s [] false (fieldResult rd (half s.build s.consts (s.reg rs1)))

end Sys2Proof.Machine
end

