-- ==== Sys2Proof/Machine/Gfp2.lean ====
section
/-! DEFINITION. The GF(p²) operator's commands (44_gfp2.md R231 to R240). Operands are even-indexed pairs; none writes a
flag. The order of the base-field operations is architectural (R17). -/

namespace Sys2Proof.Machine

/-- The base function of one operand on both components (R230). -/
def onPair (g : Nat → Nat) (a : Nat × Nat) : Nat × Nat := (g a.1, g a.2)

/-- The base function of two operands, component by component (R230). -/
def onPairs (g : Nat → Nat → Nat) (a b : Nat × Nat) : Nat × Nat := (g a.1 b.1, g a.2 b.2)

/-- The sequence of F2MUL (R236). -/
def fp2Mul (b : Build) (k : Constants) (x y : Nat × Nat) : Nat × Nat :=
  let t0 := montMul b k x.1 y.1
  let t1 := montMul b k x.2 y.2
  let sa := modAdd b k x.1 x.2
  let sb := modAdd b k y.1 y.2
  let t2 := montMul b k sa sb
  let c0 := modSub b k t0 t1
  let u := modSub b k t2 t0
  let c1 := modSub b k u t1
  (c0, c1)

/-- The sequence of F2SQR (R237). -/
def fp2Sqr (b : Build) (k : Constants) (x : Nat × Nat) : Nat × Nat :=
  let s := modAdd b k x.1 x.2
  let d := modSub b k x.1 x.2
  let c0 := montMul b k s d
  let t := modAdd b k x.1 x.1
  let c1 := montMul b k t x.2
  (c0, c1)

/-- The sequence of F2INV (R238). -/
def fp2Inv (b : Build) (k : Constants) (t : ChainTable) (x : Nat × Nat) : Nat × Nat :=
  let n0 := montMul b k x.1 x.1
  let n1 := montMul b k x.2 x.2
  let n := modAdd b k n0 n1
  let ni := inv b k t n
  let c0 := montMul b k x.1 ni
  let na := modNeg b k x.2
  let c1 := montMul b k na ni
  (c0, c1)

/-- F2ADD (R231). -/
def execF2add (rd rs1 rs2 : Reg) (s : State) : Host.Outcome State Fault Refusal :=
  issue s [rd, rs1, rs2] false (pairResult rd (onPairs (modAdd s.build s.consts) (s.pair rs1) (s.pair rs2)))

/-- F2SUB (R232). -/
def execF2sub (rd rs1 rs2 : Reg) (s : State) : Host.Outcome State Fault Refusal :=
  issue s [rd, rs1, rs2] false (pairResult rd (onPairs (modSub s.build s.consts) (s.pair rs1) (s.pair rs2)))

/-- F2NEG (R233). -/
def execF2neg (rd rs1 : Reg) (s : State) : Host.Outcome State Fault Refusal :=
  issue s [rd, rs1] false (pairResult rd (onPair (modNeg s.build s.consts) (s.pair rs1)))

/-- F2HALF (R234). -/
def execF2half (rd rs1 : Reg) (s : State) : Host.Outcome State Fault Refusal :=
  issue s [rd, rs1] false (pairResult rd (onPair (half s.build s.consts) (s.pair rs1)))

/-- F2CORR (R235). -/
def execF2corr (rd rs1 : Reg) (s : State) : Host.Outcome State Fault Refusal :=
  issue s [rd, rs1] false (pairResult rd (onPair (corr s.consts) (s.pair rs1)))

/-- F2MUL (R236). -/
def execF2mul (rd rs1 rs2 : Reg) (s : State) : Host.Outcome State Fault Refusal :=
  issue s [rd, rs1, rs2] false (pairResult rd (fp2Mul s.build s.consts (s.pair rs1) (s.pair rs2)))

/-- F2SQR (R237). -/
def execF2sqr (rd rs1 : Reg) (s : State) : Host.Outcome State Fault Refusal :=
  issue s [rd, rs1] false (pairResult rd (fp2Sqr s.build s.consts (s.pair rs1)))

/-- F2INV (R238): also rejected with BAD_CHAIN when the chain table is not valid. -/
def execF2inv (rd rs1 : Reg) (s : State) : Host.Outcome State Fault Refusal :=
  issue s [rd, rs1] true (pairResult rd (fp2Inv s.build s.consts s.chain (s.pair rs1)))

/-- F2TOM (R239). -/
def execF2tom (rd rs1 : Reg) (s : State) : Host.Outcome State Fault Refusal :=
  issue s [rd, rs1] false (pairResult rd (onPair (fun a => montMul s.build s.consts a s.consts.r2) (s.pair rs1)))

/-- F2FROMM (R240). -/
def execF2fromm (rd rs1 : Reg) (s : State) : Host.Outcome State Fault Refusal :=
  issue s [rd, rs1] false (pairResult rd (onPair (fun a => corr s.consts (montRed s.build s.consts a)) (s.pair rs1)))

end Sys2Proof.Machine
end

