-- ==== Sys2Proof/Machine/Inversion.lean ====
section
/-! DEFINITION. The inversion engine's commands (43_inversion.md R215, R216): rejected with BAD_CHAIN when the chain table
is not valid; inverting 0 or p is no error (R217). -/

namespace Sys2Proof.Machine

/-- FINVC (R215). -/
def execFinvc (rd rs1 : Reg) (s : State) : Host.Outcome State Fault Refusal :=
  issue s [] true (fieldResult rd (chain s.build s.consts s.chain (s.reg rs1)))

/-- FINV (R216). -/
def execFinv (rd rs1 : Reg) (s : State) : Host.Outcome State Fault Refusal :=
  issue s [] true (fieldResult rd (inv s.build s.consts s.chain (s.reg rs1)))

end Sys2Proof.Machine
end

