-- ==== Sys2Proof/Machine/Montgomery.lean ====
section
/-! DEFINITION. The Montgomery multiplier's commands (41_montgomery.md R165 to R169). None writes a flag. -/

namespace Sys2Proof.Machine

/-- FMUL (R165). -/
def execFmul (rd rs1 rs2 : Reg) (s : State) : Host.Outcome State Fault Refusal :=
  issue s [] false (fieldResult rd (montMul s.build s.consts (s.reg rs1) (s.reg rs2)))

/-- FSQR (R166). -/
def execFsqr (rd rs1 : Reg) (s : State) : Host.Outcome State Fault Refusal :=
  issue s [] false (fieldResult rd (montMul s.build s.consts (s.reg rs1) (s.reg rs1)))

/-- FTOM (R167): a multiply by R2, without correction (90_conflicts.md C2). -/
def execFtom (rd rs1 : Reg) (s : State) : Host.Outcome State Fault Refusal :=
  issue s [] false (fieldResult rd (montMul s.build s.consts (s.reg rs1) s.consts.r2))

/-- FFROMM (R168). -/
def execFfromm (rd rs1 : Reg) (s : State) : Host.Outcome State Fault Refusal :=
  issue s [] false (fieldResult rd (corr s.consts (montRed s.build s.consts (s.reg rs1))))

/-- FCORR (R169). -/
def execFcorr (rd rs1 : Reg) (s : State) : Host.Outcome State Fault Refusal :=
  issue s [] false (fieldResult rd (corr s.consts (s.reg rs1)))

end Sys2Proof.Machine
end

