-- ==== Sys2Proof/Machine/Multiprecision.lean ====
section
/-! DEFINITION. The multiprecision commands (40_multiprecision.md R140 to R144), the only ones that write C. -/

namespace Sys2Proof.Machine

/-- The sum modulo 2^n and the carry-out (R141). -/
def mpSum (n a b : Nat) : Nat × Bool := ((a + b) % 2 ^ n, carryOut n a b)

/-- The difference modulo 2^n, wrapping in two's complement, and the borrow-out (R142). -/
def mpDiff (n a b : Nat) : Nat × Bool :=
  ((((a : Int) - (b : Int)) % ((2 ^ n : Nat) : Int)).toNat, borrowOut a b)

/-- MPADD (R141). -/
def execMpadd (double : Bool) (rd rs1 rs2 : Reg) (s : State) : Host.Outcome State Fault Refusal :=
  let r := mpSum (mpBits s.build double) (s.mpOperand double rs1) (s.mpOperand double rs2)
  issue s (bif double then [rd, rs1, rs2] else []) false ⟨destMp s.build double rd r.1, some r.2⟩

/-- MPSUB (R142). -/
def execMpsub (double : Bool) (rd rs1 rs2 : Reg) (s : State) : Host.Outcome State Fault Refusal :=
  let r := mpDiff (mpBits s.build double) (s.mpOperand double rs1) (s.mpOperand double rs2)
  issue s (bif double then [rd, rs1, rs2] else []) false ⟨destMp s.build double rd r.1, some r.2⟩

/-- MPSHL1 (R143): (2*a) mod R; C is the old top bit. -/
def execMpshl1 (rd rs1 : Reg) (s : State) : Host.Outcome State Fault Refusal :=
  let a := s.reg rs1
  issue s [] false ⟨destOne rd (2 * a % s.build.radix), some (topBitOut s.build a)⟩

/-- MPSHR1 (R144): a div 2; C is the old bit 0. -/
def execMpshr1 (rd rs1 : Reg) (s : State) : Host.Outcome State Fault Refusal :=
  let a := s.reg rs1
  issue s [] false ⟨destOne rd (a / 2), some (lowBitOut a)⟩

end Sys2Proof.Machine
end

