-- ==== Sys2Proof/Machine/Dispatch.lean ====
section
/-! DEFINITION. One arm per command. -/

namespace Sys2Proof.Machine

/-- What CORE does with a command presented to it (60_exceptions.md R261). -/
def exec (i : Instr) (s : State) : Host.Outcome State Fault Refusal :=
  match i with
  | .mpadd double rd rs1 rs2 => Sys2Proof.Machine.execMpadd double rd rs1 rs2 s
  | .mpsub double rd rs1 rs2 => Sys2Proof.Machine.execMpsub double rd rs1 rs2 s
  | .mpshl1 rd rs1 => Sys2Proof.Machine.execMpshl1 rd rs1 s
  | .mpshr1 rd rs1 => Sys2Proof.Machine.execMpshr1 rd rs1 s
  | .fmul rd rs1 rs2 => Sys2Proof.Machine.execFmul rd rs1 rs2 s
  | .fsqr rd rs1 => Sys2Proof.Machine.execFsqr rd rs1 s
  | .ftom rd rs1 => Sys2Proof.Machine.execFtom rd rs1 s
  | .ffromm rd rs1 => Sys2Proof.Machine.execFfromm rd rs1 s
  | .fcorr rd rs1 => Sys2Proof.Machine.execFcorr rd rs1 s
  | .fadd rd rs1 rs2 => Sys2Proof.Machine.execFadd rd rs1 rs2 s
  | .fsub rd rs1 rs2 => Sys2Proof.Machine.execFsub rd rs1 rs2 s
  | .fneg rd rs1 => Sys2Proof.Machine.execFneg rd rs1 s
  | .fhalf rd rs1 => Sys2Proof.Machine.execFhalf rd rs1 s
  | .finvc rd rs1 => Sys2Proof.Machine.execFinvc rd rs1 s
  | .finv rd rs1 => Sys2Proof.Machine.execFinv rd rs1 s
  | .f2add rd rs1 rs2 => Sys2Proof.Machine.execF2add rd rs1 rs2 s
  | .f2sub rd rs1 rs2 => Sys2Proof.Machine.execF2sub rd rs1 rs2 s
  | .f2neg rd rs1 => Sys2Proof.Machine.execF2neg rd rs1 s
  | .f2half rd rs1 => Sys2Proof.Machine.execF2half rd rs1 s
  | .f2corr rd rs1 => Sys2Proof.Machine.execF2corr rd rs1 s
  | .f2mul rd rs1 rs2 => Sys2Proof.Machine.execF2mul rd rs1 rs2 s
  | .f2sqr rd rs1 => Sys2Proof.Machine.execF2sqr rd rs1 s
  | .f2inv rd rs1 => Sys2Proof.Machine.execF2inv rd rs1 s
  | .f2tom rd rs1 => Sys2Proof.Machine.execF2tom rd rs1 s
  | .f2fromm rd rs1 => Sys2Proof.Machine.execF2fromm rd rs1 s

end Sys2Proof.Machine
end

