-- ==== Sys2Proof/Machine/Step.lean ====
section
/-! DEFINITION. One step of CORE: the next thing the script says happens (entry 3), or, when it says nothing more, the
engine's turn (60_exceptions.md R268, R277). -/

namespace Sys2Proof.Machine

/-- A CMD write's word, presented as a command (60_exceptions.md R261): rejected by the checks before and in decoding, or
run. -/
def present (w : Word) (s : State) : Host.Outcome State Fault Refusal :=
  match frontEnd w s with
  | .reject c => .next (reject c s)
  | .run i => exec i s

/-- A host access, and the command it presents if it is a CMD write (20_memory.md R78). -/
def access (a : Access) (s : State) : Host.Outcome State Fault Refusal :=
  match busAccess a s with
  | .done s' => .next s'
  | .command w s' => present w s'

/-- One step. -/
def step (s : State) : Host.Outcome State Fault Refusal :=
  match s.script with
  | [] => .next (engineTurn (takeEvent [] s))
  | .engine :: rest => .next (engineTurn (takeEvent rest s))
  | .reset a :: rest => .next (resetEdge a (takeEvent rest s))
  | .access a :: rest => access a (takeEvent rest s)

/-- The state whose next step is the CMD write of the command with the table bits `w` (entry 11). -/
def State.withFetchWord (s : State) (nbits w : Nat) : State := loadCommand (tableWord nbits w) s

end Sys2Proof.Machine
end

