-- ==== Sys2Proof/Safety.lean ====
section
/-! DEFINITION. What claims are stated in: the invariant of the state, when a command may run and what it leaves, the
conditions on the constants that the spec's derived properties need (00_scope.md R11, 41_montgomery.md R160, 43_inversion.md
R214), and the monitor of reads of registers that nothing has written (10_state.md R55, entry 2). -/

namespace Sys2Proof.Machine

/-! ### The invariant -/

/-- Every destination of a command in flight gets an element value. -/
def Result.fits (b : Build) (r : Result) : Prop := ∀ d ∈ r.dests, d.2 < b.radix

/-- The invariant of CORE's state: the build is a legal one (R8); every element register holds an element value and PPRIME
a w-bit value (R31, R33 to R35); ERRCODE is 0x00 exactly when ERR = 0 (R44); a command in flight was accepted under LOCK,
has not set DONE, and will write element values (R43, R261). -/
structure State.Inv (s : State) : Prop where
  build : s.build.wf = true
  f : ∀ r : Reg, s.reg r < s.build.radix
  p : s.consts.p < s.build.radix
  r2 : s.consts.r2 < s.build.radix
  pprime : s.consts.pprime < 2 ^ s.build.w
  errcode : s.status.errcode.isSome = s.status.err
  inFlight : ∀ r, s.engine = some r → s.ctrl.lock = true ∧ s.status.done = false ∧ r.fits s.build

/-! ### Running a command -/

/-- CORE may run a command: idle and locked (60_exceptions.md R261 items 1 and 2). -/
def State.Ready (s : State) : Prop := s.busy = false ∧ s.ctrl.lock = true

/-- The state a completed command leaves of `s`: the registers `f` and the flag `c`, DONE = 1, BUSY = 0, and everything
else as it was. -/
def State.finished (s : State) (f : Vector Nat 32) (c : Bool) : State :=
  { s with f := f, engine := none, status := { s.status with done := true, c := c } }

/-- `exec` accepts the command: it answers a next state with BUSY = 1 and DONE = 0 in which nothing else has changed, and
the engine's completion of that state leaves exactly `s'` (R261 item 5, 20_memory.md R85). -/
def RunsTo (i : Instr) (s s' : State) : Prop :=
  ∃ t, exec i s = .next t ∧ t.busy = true
    ∧ t = { s with engine := t.engine, status := { s.status with done := false } }
    ∧ engineTurn t = s'

/-- `exec` rejects the command with the code: a next state in which ERR and ERRCODE have changed as 10_state.md R44 says
and nothing else has. -/
def Rejects (i : Instr) (s : State) (c : RejectCode) : Prop :=
  exec i s = .next (if s.status.err then s else { s with status := { s.status with err := true, errcode := some c } })

/-! ### What happens in a step, in the spec's offsets -/

/-- The step is the engine's: the script says so, or says nothing more. -/
def EngineMoves (s : State) : Prop := s.script = [] ∨ ∃ rest, s.script = .engine :: rest

/-- The step is a reset edge (70_reset_and_hazards.md R290). -/
def ResetHits (s : State) : Prop := ∃ a rest, s.script = .reset a :: rest

/-- The step is a host write of `v` at `offset` that is not answered SLVERR. -/
def WritesAt (s : State) (offset : Nat) (v : Word) : Prop :=
  ∃ a rest, s.script = .access a :: rest ∧ a.write = true ∧ a.addr.toNat = offset ∧ a.wdata = v ∧ a.failing s = false

/-- A full 32-bit write of `v` at a byte offset (20_memory.md R76). -/
def writeAt (offset : Nat) (v : Word) : Access := ⟨true, BitVec.ofNat 13 offset, 0xF, v⟩

/-- A full 32-bit read at a byte offset (R76). -/
def readAt (offset : Nat) : Access := ⟨false, BitVec.ofNat 13 offset, 0xF, 0⟩

/-- The holes of the register map, as 20_memory.md R72 lists them. -/
def unmappedOffset (n : Nat) : Prop :=
  (0x000C ≤ n ∧ n < 0x0010) ∨ (0x001C ≤ n ∧ n < 0x0020) ∨ (0x0024 ≤ n ∧ n < 0x0028) ∨ (0x0030 ≤ n ∧ n < 0x0080)
    ∨ (0x0180 ≤ n ∧ n < 0x0400) ∨ (0x0800 ≤ n ∧ n < 0x1000)

/-- The offsets of CHAIN_CFG, PPRIME_LO and PPRIME_HI, P, R2 and CHAIN_STEP[] (R72), which LOCK freezes (R83); of P and R2 the
whole windows, slots k >= L among them (entry 16). -/
def frozenOffset (n : Nat) : Prop :=
  (0x0020 ≤ n ∧ n < 0x0024) ∨ (0x0028 ≤ n ∧ n < 0x0030) ∨ (0x0080 ≤ n ∧ n < 0x0180) ∨ (0x0400 ≤ n ∧ n < 0x0800)

/-- The offsets of the F windows (R72). -/
def fOffset (n : Nat) : Prop := 0x1000 ≤ n ∧ n < 0x2000

/-- The opcode map of 30_encoding.md R114, row by row: OP and format. -/
def opcodeMap : List (Nat × Format) :=
  [(0x01, .r3d), (0x02, .r3d), (0x03, .r2), (0x04, .r2), (0x08, .r3), (0x09, .r2), (0x0A, .r2), (0x0B, .r2), (0x0C, .r2),
    (0x10, .r3), (0x11, .r3), (0x12, .r2), (0x13, .r2), (0x18, .r2), (0x19, .r2)]
  ++ [(0x20, .p3), (0x21, .p3), (0x22, .p2), (0x23, .p2), (0x24, .p2), (0x25, .p3), (0x26, .p2), (0x27, .p2), (0x28, .p2),
    (0x29, .p2)]

/-- The bits a format fixes to 0 (R112): the mask of R115 without OP. -/
def zeroMask : Format → Word
  | .r3 => 0x000007FF
  | .r3d => 0x000003FF
  | .r2 => 0x0000FFFF
  | .p3 => 0x000007FF
  | .p2 => 0x0000FFFF

/-- A word that names a pair by an odd register in a format (R112, 60_exceptions.md R264). -/
def namesOddPair : Format → Word → Bool
  | .r3, _ => false
  | .r3d, w => w.getLsbD 10 && (w.getLsbD 21 || w.getLsbD 16 || w.getLsbD 11)
  | .r2, _ => false
  | .p3, w => w.getLsbD 21 || w.getLsbD 16 || w.getLsbD 11
  | .p2, w => w.getLsbD 21 || w.getLsbD 16

/-! ### Conditions on the constants -/

/-- The conditions of R11: p odd, p ≡ 3 (mod 4), 3 <= p, 4*p < R. -/
structure Headroom (b : Build) (k : Constants) : Prop where
  odd : k.p % 2 = 1
  threeModFour : k.p % 4 = 3
  three : 3 ≤ k.p
  four : 4 * k.p < b.radix

/-- The constants are consistent (R160). -/
structure Consistent (b : Build) (k : Constants) : Prop where
  pprime : (k.p * k.pprime + 1) % 2 ^ b.w = 0
  r2 : k.r2 = b.radix ^ 2 % k.p

/-- The exponent after the chain steps `l`, from `e` (43_inversion.md R214). -/
def exponentFrom (e : Nat) (l : List ChainStep) : Nat :=
  l.foldl (fun e st => e * 2 ^ st.k.toNat + (if st.j = 0xFF then 0 else 2 * st.j.toNat + 1)) e

/-- `E(table)` (R214). -/
def ChainTable.exponent (t : ChainTable) : Nat :=
  exponentFrom (2 * t.j0.toNat + 1) (t.steps.toList.take t.nsteps.toNat)

/-! ### What a command reads -/

/-- What a command reads and whether it writes C. -/
structure Profile where
  /-- The F registers read as sources (30_encoding.md R113; 70_reset_and_hazards.md R300). -/
  sources : List Reg
  /-- The rule reads P (10_state.md R33); the multiprecision commands do not (40_multiprecision.md R141). -/
  p : Bool
  /-- The rule reduces by MontRed, and so reads PPRIME (41_montgomery.md R161). -/
  pprime : Bool
  /-- The rule reads R2 (10_state.md R35: only FTOM and F2TOM). -/
  r2 : Bool
  /-- The rule reads the chain table (60_exceptions.md R265). -/
  chain : Bool
  /-- The command writes C (10_state.md R42). -/
  writesC : Bool
  deriving DecidableEq, Repr

/-- The registers of a pair operand (10_state.md R32). -/
def pairOf (r : Reg) : List Reg := [r, pairMate r]

/-- The profile of a multiprecision command. -/
def Profile.mp (sources : List Reg) : Profile := ⟨sources, false, false, false, false, true⟩

/-- The profile of a command that reads P and no other constant. -/
def Profile.addSub (sources : List Reg) : Profile := ⟨sources, true, false, false, false, false⟩

/-- The profile of a command that reads P and PPRIME. -/
def Profile.mont (sources : List Reg) : Profile := ⟨sources, true, true, false, false, false⟩

/-- The profile of a command that reads P, PPRIME and R2. -/
def Profile.toMont (sources : List Reg) : Profile := ⟨sources, true, true, true, false, false⟩

/-- The profile of an inversion command. -/
def Profile.inversion (sources : List Reg) : Profile := ⟨sources, true, true, false, true, false⟩

/-- What each command reads, from the pseudocode of its rule. -/
def profile : Instr → Profile
  | .mpadd d _ rs1 rs2 => .mp (bif d then pairOf rs1 ++ pairOf rs2 else [rs1, rs2])
  | .mpsub d _ rs1 rs2 => .mp (bif d then pairOf rs1 ++ pairOf rs2 else [rs1, rs2])
  | .mpshl1 _ rs1 => .mp [rs1]
  | .mpshr1 _ rs1 => .mp [rs1]
  | .fmul _ rs1 rs2 => .mont [rs1, rs2]
  | .fsqr _ rs1 => .mont [rs1]
  | .ftom _ rs1 => .toMont [rs1]
  | .ffromm _ rs1 => .mont [rs1]
  | .fcorr _ rs1 => .addSub [rs1]
  | .fadd _ rs1 rs2 => .addSub [rs1, rs2]
  | .fsub _ rs1 rs2 => .addSub [rs1, rs2]
  | .fneg _ rs1 => .addSub [rs1]
  | .fhalf _ rs1 => .addSub [rs1]
  | .finvc _ rs1 => .inversion [rs1]
  | .finv _ rs1 => .inversion [rs1]
  | .f2add _ rs1 rs2 => .addSub (pairOf rs1 ++ pairOf rs2)
  | .f2sub _ rs1 rs2 => .addSub (pairOf rs1 ++ pairOf rs2)
  | .f2neg _ rs1 => .addSub (pairOf rs1)
  | .f2half _ rs1 => .addSub (pairOf rs1)
  | .f2corr _ rs1 => .addSub (pairOf rs1)
  | .f2mul _ rs1 rs2 => .mont (pairOf rs1 ++ pairOf rs2)
  | .f2sqr _ rs1 => .mont (pairOf rs1)
  | .f2inv _ rs1 => .inversion (pairOf rs1)
  | .f2tom _ rs1 => .toMont (pairOf rs1)
  | .f2fromm _ rs1 => .mont (pairOf rs1)

/-! ### The monitor of unwritten registers (R55) -/

/-- Which storage has been written since reset, limb by limb (20_memory.md R73, R74). The hardware has no such record;
this one stands beside the machine. -/
structure Written where
  f : List (Reg × Nat)
  p : List Nat
  r2 : List Nat
  pprime : List Nat
  chainCfg : Bool
  steps : List (Fin 256)
  deriving DecidableEq, Repr

/-- Nothing has been written: the record right after reset. -/
def Written.nothing : Written := ⟨[], [], [], [], false, []⟩

/-- All limbs of F[r] have been written. -/
def Written.hasReg (w : Written) (b : Build) (r : Reg) : Bool :=
  (List.range b.limbs).all (fun k => w.f.contains (r, k))

/-- All limbs of P have been written. -/
def Written.hasP (w : Written) (b : Build) : Bool := (List.range b.limbs).all (fun k => w.p.contains k)

/-- All limbs of R2 have been written. -/
def Written.hasR2 (w : Written) (b : Build) : Bool := (List.range b.limbs).all (fun k => w.r2.contains k)

/-- All of PPRIME has been written: PPRIME_LO, and PPRIME_HI when w = 64 (70_reset_and_hazards.md R293). -/
def Written.hasPprime (w : Written) (b : Build) : Bool :=
  (List.range ((b.w + 31) / 32)).all (fun k => w.pprime.contains k)

/-- The chain registers an inversion command reads hold a value: CHAIN_CFG, and CHAIN_STEP[0..NSTEPS-1]. -/
def Written.hasChain (w : Written) (t : ChainTable) : Bool :=
  w.chainCfg && (List.finRange 256).all (fun i => decide (t.nsteps.toNat ≤ i.val) || w.steps.contains i)

/-- Everything an accepted command reads holds a value (R55). -/
def Written.covers (w : Written) (s : State) (i : Instr) : Bool :=
  (profile i).sources.all (w.hasReg s.build)
    && (!(profile i).p || w.hasP s.build)
    && (!(profile i).pprime || w.hasPprime s.build)
    && (!(profile i).r2 || w.hasR2 s.build)

/-- What an access reads without reading storage that nothing has written (R55): a host read of a written limb or register;
a command whose check of the chain table, and whose sources if it is accepted, hold values. -/
def Written.allows (w : Written) (s : State) (a : Access) : Bool :=
  if a.failing s then true
  else if a.write then
    (if targetOf a.addr = .cmd then
      (match frontEnd a.wdata s with
       | .reject _ => true
       | .run i =>
         (!(profile i).chain || w.hasChain s.chain)
           && (((profile i).chain && !s.chain.valid) || w.covers s i))
     else true)
  else
    match targetOf a.addr with
    | .f r k => decide (s.build.limbs ≤ k) || w.f.contains (r, k)
    | .p k => decide (s.build.limbs ≤ k) || w.p.contains k
    | .r2 k => decide (s.build.limbs ≤ k) || w.r2.contains k
    | .pprimeLo => w.pprime.contains 0
    | .pprimeHi => decide (s.build.w ≤ 32) || w.pprime.contains 1
    | .chainCfg => w.chainCfg
    | .chainStep i => w.steps.contains i
    | _ => true

/-- The next step reads nothing unwritten. -/
def Written.safe (w : Written) (s : State) : Bool :=
  match s.script with
  | .access a :: rest => w.allows (takeEvent rest s) a
  | _ => true

/-- A completed command has written all limbs of its destinations. -/
def Written.afterEngine (w : Written) (s : State) : Written :=
  match s.engine with
  | none => w
  | some r => { w with f := r.dests.flatMap (fun d => (List.range s.build.limbs).map (fun k => (d.1, k))) ++ w.f }

/-- What an access has written. -/
def Written.afterAccess (w : Written) (s : State) (a : Access) : Written :=
  if a.failing s || !a.write then w
  else
    match targetOf a.addr with
    | .f r k => { w with f := (r, k) :: w.f }
    | .p k => { w with p := k :: w.p }
    | .r2 k => { w with r2 := k :: w.r2 }
    | .pprimeLo => { w with pprime := 0 :: w.pprime }
    | .pprimeHi => { w with pprime := 1 :: w.pprime }
    | .chainCfg => { w with chainCfg := true }
    | .chainStep i => { w with steps := i :: w.steps }
    | _ => w

/-- The record after the step of `s`. -/
def Written.next (w : Written) (s : State) : Written :=
  match s.script with
  | [] => w.afterEngine s
  | .engine :: _ => w.afterEngine s
  | .reset _ :: _ => .nothing
  | .access a :: rest => w.afterAccess (takeEvent rest s) a

/-- Two states that differ at most in storage that nothing has written. -/
structure AgreeOn (w : Written) (s t : State) : Prop where
  build : s.build = t.build
  ctrl : s.ctrl = t.ctrl
  status : s.status = t.status
  engine : s.engine = t.engine
  resp : s.resp = t.resp
  script : s.script = t.script
  fresh : s.fresh = t.fresh
  f : ∀ r k, (r, k) ∈ w.f → k < s.build.limbs → limb k (s.reg r) = limb k (t.reg r)
  p : ∀ k ∈ w.p, k < s.build.limbs → limb k s.consts.p = limb k t.consts.p
  r2 : ∀ k ∈ w.r2, k < s.build.limbs → limb k s.consts.r2 = limb k t.consts.r2
  pprime : ∀ k ∈ w.pprime, limb k s.consts.pprime = limb k t.consts.pprime
  chainCfg : w.chainCfg = true →
    s.chain.npow = t.chain.npow ∧ s.chain.j0 = t.chain.j0 ∧ s.chain.nsteps = t.chain.nsteps
  steps : ∀ i ∈ w.steps, s.chain.steps[i.val] = t.chain.steps[i.val]

/-! ### What an observer of control sees -/

/-- The registers a command in flight will write and whether it writes C, without the values. -/
def Result.shape (r : Result) : List Reg × Bool := (r.dests.map Prod.fst, r.carry.isSome)

/-- Two states that differ at most in operand data: the values of F registers, of a command in flight and of C, and the
data of the last read. LOCK, BUSY, DONE, ERR, ERRCODE, the constants and the chain table are the same. -/
structure SameControl (s t : State) : Prop where
  build : s.build = t.build
  consts : s.consts = t.consts
  chain : s.chain = t.chain
  ctrl : s.ctrl = t.ctrl
  done : s.status.done = t.status.done
  err : s.status.err = t.status.err
  errcode : s.status.errcode = t.status.errcode
  engine : s.engine.map Result.shape = t.engine.map Result.shape
  resp : s.resp.map Response.err = t.resp.map Response.err
  script : s.script = t.script
  fresh : s.fresh = t.fresh

end Sys2Proof.Machine
end

