-- ==== Sys2Proof/Certificates/Slice0/Obligations.lean ====
section
/-! DEFINITION. The statements for the provers, from the numbered rules of spec/. -/

open Sys2Proof Sys2Proof.Machine

/-! ## Encoding -/

/-- R121: the two encodings the spec spells out, and at least one word of each other family of the opcode table. -/
def Obligations.SpecWordsDecode : Prop :=
  ((0x08 : Word) <<< 26 ||| (3 : Word) <<< 21 ||| (1 : Word) <<< 16 ||| (2 : Word) <<< 11 = 0x20611000) ∧
  ((0x01 : Word) <<< 26 ||| (0 : Word) <<< 21 ||| (2 : Word) <<< 16 ||| (4 : Word) <<< 11 ||| (1 : Word) <<< 10 =
    0x04022400) ∧
  decode 0x20611000 = .cmd (.fmul 3 1 2) ∧ encode (.fmul 3 1 2) = 0x20611000 ∧
  decode 0x04022400 = .cmd (.mpadd true 0 2 4) ∧ encode (.mpadd true 0 2 4) = 0x04022400 ∧
  decode 0x10E00000 = .cmd (.mpshr1 7 0) ∧ decode 0x2C830000 = .cmd (.ffromm 4 3) ∧
  decode 0x44221800 = .cmd (.fsub 1 2 3) ∧ decode 0x60A10000 = .cmd (.finvc 5 1) ∧ decode 0x94801000 = .cmd (.f2mul 4 0 2) ∧
  decode 0xA5880000 = .cmd (.f2fromm 12 8)

/-- 30_encoding.md R111, R112, R114, R118: decoding the word of a well-formed command gives the command back. -/
def Obligations.DecodeOfEncode : Prop := ∀ i : Instr, i.wf = true → decode (encode i) = .cmd i

/-- 30_encoding.md R111, R112, R118: a word has at most one reading, and it is a well-formed command. -/
def Obligations.EncodeOfDecode : Prop := ∀ (w : Word) (i : Instr), decode w = .cmd i → encode i = w ∧ i.wf = true

/-- 30_encoding.md R112, R114, R117, R118: Decode is total, and its three checks are applied in order. -/
def Obligations.DecodeChecksInOrder : Prop :=
  ∀ w : Word, let op := w.toNat / 2 ^ 26
    (op ∉ opcodeMap.map Prod.fst → decode w = .reject .illegalOpcode) ∧
    ∀ fmt, (op, fmt) ∈ opcodeMap →
      (w &&& zeroMask fmt ≠ 0 → decode w = .reject .reservedBits) ∧
      (w &&& zeroMask fmt = 0 → namesOddPair fmt w = true → decode w = .reject .misalignedPair) ∧
      (w &&& zeroMask fmt = 0 → namesOddPair fmt w = false →
        ∃ i, decode w = .cmd i ∧ i.opcode = op ∧ i.format = fmt)

/-! ## Presenting a command -/

/-- 60_exceptions.md R261, 20_memory.md R78: when the word written to CMD decodes to a command and CORE is idle and locked,
the step is `exec` of that command, on the state whose event is taken and whose write is answered OKAY. -/
def Obligations.StepRunsDecodedCommand : Prop :=
  ∀ (s : State) (w : Word) (i : Instr) (rest : List Event),
    s.script = .access (cmdWrite w) :: rest → s.Ready → decode w = .cmd i →
      step s = exec i { s with script := rest, resp := some ⟨false, none⟩ }

/-- Entry 11: the state `withFetchWord` makes of any state runs any well-formed command in its next step: it is accepted. -/
def Obligations.LoadedCommandIsAccepted : Prop :=
  ∀ (s : State) (i : Instr), i.wf = true →
    ∃ t, step (s.withFetchWord 32 (encode i).toNat) = .next t ∧ t.busy = true ∧ t.status.done = false
      ∧ t.script = s.script ∧ t.f = s.f

/-- 60_exceptions.md R261, R262, R266: the checks on a CMD write in their order, each with its one effect. -/
def Obligations.AcceptanceChecksInOrder : Prop :=
  ∀ (s : State) (w : Word) (rest : List Event), s.script = .access (cmdWrite w) :: rest →
    let s0 : State := { s with script := rest, resp := some ⟨false, none⟩ }
    let rejected (c : RejectCode) : State :=
      if s0.status.err then s0 else { s0 with status := { s0.status with err := true, errcode := some c } }
    if s.busy = true then step s = .next (rejected .busy)
    else if s.ctrl.lock = false then step s = .next (rejected .notLocked)
    else match decode w with
      | .reject c => step s = .next (rejected c)
      | .cmd i =>
        if (profile i).chain = true ∧ s.chain.valid = false then step s = .next (rejected .badChain)
        else ∃ r, step s = .next { s0 with engine := some r, status := { s0.status with done := false } }

/-- Entry 9 (DEDUCED), from 60_exceptions.md R261 items 1 and 2: `exec` repeats the checks BUSY and NOT_LOCKED, so that it
rejects a command on a busy or unlocked state too. The repetition is the model's: a step rejects the CMD write there before
`exec`, and AcceptanceChecksInOrder states that rule of the step. -/
def Obligations.BusyOrUnlockedRejects : Prop :=
  ∀ (i : Instr) (s : State), (s.busy = true → Rejects i s .busy) ∧
    (s.busy = false → s.ctrl.lock = false → Rejects i s .notLocked)

/-- Entry 9 (DEDUCED), from 60_exceptions.md R264: `exec` repeats the check MISALIGNED_PAIR on commands with an odd pair
register, which no word decodes to. The repetition is the model's: DecodeChecksInOrder and AcceptanceChecksInOrder state
R264's rule on the words. -/
def Obligations.OddPairRejects : Prop :=
  ∀ (i : Instr) (s : State), s.Ready → i.wf = false → Rejects i s .misalignedPair

/-- R39: when the chain table is valid; and FINVC, FINV and F2INV are rejected when it is not. -/
def Obligations.ChainTableValidity : Prop :=
  (∀ t : ChainTable, t.valid = true ↔
    (1 ≤ t.npow.toNat ∧ t.npow.toNat ≤ 16) ∧ t.j0.toNat < t.npow.toNat ∧ t.nsteps.toNat ≤ 256 ∧
      ∀ i : Fin 256, i.val < t.nsteps.toNat →
        t.steps[i.val].j.toNat < t.npow.toNat ∨ t.steps[i.val].j = 0xFF) ∧
  (∀ (s : State) (rd rs1 : Reg), s.Ready → s.chain.valid = false →
    Rejects (.finvc rd rs1) s .badChain ∧ Rejects (.finv rd rs1) s .badChain ∧
      (rd.val % 2 = 0 → rs1.val % 2 = 0 → Rejects (.f2inv rd rs1) s .badChain))

/-! ## Completion, status and errors -/

/-- 60_exceptions.md R260, R268: no command and no step ends in a fault or a refusal. That this holds of steps that read
storage nothing has written since reset is the model's choice (entry 2, DESIGN CHOICE): 10_state.md R55 and
92_eei_decisions.md D40 have a model fault there, and this one answers 0. -/
def Obligations.NothingStopsTheMachine : Prop :=
  (∀ (i : Instr) (s : State), ∃ t, exec i s = .next t) ∧ ∀ s : State, ∃ t, step s = .next t

/-- 20_memory.md R85, 60_exceptions.md R261 item 5, R277: at the engine's turn a command in flight writes its destinations
and, if it writes it, C, as BUSY falls and DONE rises, and changes nothing else; an idle engine changes nothing. -/
def Obligations.CompletionPublishesResults : Prop :=
  ∀ s : State, EngineMoves s →
    ∃ t, step s = .next t ∧
      match s.engine with
      | none => t = { s with script := s.script.tail, resp := none }
      | some r =>
        t = { s with
              script := s.script.tail
              resp := none
              f := r.dests.foldl (fun f d => f.set d.1.val d.2) s.f
              engine := none
              status := { s.status with done := true, c := r.carry.getD s.status.c } }

/-- 10_state.md R43: BUSY and DONE change only as listed. -/
def Obligations.BusyAndDoneChanges : Prop :=
  ∀ s t : State, step s = .next t →
    (t.busy ≠ s.busy →
      (∃ w, WritesAt s 0x0018 w ∧ s.busy = false ∧ t.busy = true ∧ t.status.done = false) ∨
      (EngineMoves s ∧ s.busy = true ∧ t.busy = false ∧ t.status.done = true) ∨
      (ResetHits s ∧ t.busy = false)) ∧
    (t.status.done ≠ s.status.done →
      (∃ w, WritesAt s 0x0018 w ∧ t.busy = true ∧ t.status.done = false) ∨
      (EngineMoves s ∧ s.busy = true ∧ t.busy = false ∧ t.status.done = true) ∨
      (∃ v, WritesAt s 0x0014 v ∧ v.getLsbD 1 = true ∧ t.status.done = false) ∨
      (ResetHits s ∧ t.status.done = false))

/-- 10_state.md R44: ERR and ERRCODE change only at a rejection while ERR = 0, by a write of 1 to STATUS bit 2, or at a
reset; the first error wins. -/
def Obligations.ErrorRecordChanges : Prop :=
  ∀ s t : State, step s = .next t →
    (t.status.err = s.status.err ∧ t.status.errcode = s.status.errcode) ∨
    (∃ w c, WritesAt s 0x0018 w ∧ s.status.err = false ∧ t.status.err = true ∧ t.status.errcode = some c) ∨
    (∃ v, WritesAt s 0x0014 v ∧ v.getLsbD 2 = true ∧ t.status.err = false ∧ t.status.errcode = none) ∨
    (ResetHits s ∧ t.status.err = false ∧ t.status.errcode = none)

/-- 10_state.md R42: only MPADD, MPSUB, MPSHL1 and MPSHR1 (OP 0x01 to 0x04) write C, and only at their completion; besides
them only a reset changes it. -/
def Obligations.CarryWrittenOnlyByMultiprecision : Prop :=
  (∀ (i : Instr) (s t : State) (r : Result), exec i s = .next t → s.busy = false → t.engine = some r →
    r.carry.isSome = decide (i.opcode ≤ 0x04)) ∧
  (∀ s t : State, step s = .next t → t.status.c ≠ s.status.c →
    (EngineMoves s ∧ ∃ r, s.engine = some r ∧ r.carry = some t.status.c) ∨ (ResetHits s ∧ t.status.c = false))

/-- R54. -/
def Obligations.InterruptLine : Prop :=
  ∀ s : State, s.irq = true ↔
    (s.status.done = true ∧ s.ctrl.ieDone = true) ∨ (s.status.err = true ∧ s.ctrl.ieErr = true)

/-- 10_state.md R41, 60_exceptions.md R263, 20_memory.md R77: in every state a host read at 0x0014 answers the STATUS word,
with these bits, and changes nothing. -/
def Obligations.StatusWordLayout : Prop :=
  ∀ s : State,
    (∀ rest : List Event, s.script = .access (readAt 0x0014) :: rest →
      step s = .next { s with script := rest, resp := some ⟨false, some s.statusWord⟩ }) ∧
    s.statusWord.getLsbD 0 = s.busy ∧ s.statusWord.getLsbD 1 = s.status.done ∧ s.statusWord.getLsbD 2 = s.status.err ∧
    s.statusWord.getLsbD 3 = s.status.c ∧ s.statusWord.toNat / 2 ^ 4 % 2 ^ 4 = 0 ∧ s.statusWord.toNat / 2 ^ 16 = 0 ∧
    s.statusWord.toNat / 2 ^ 8 = match s.status.errcode with
      | none => 0x00
      | some .illegalOpcode => 0x01
      | some .reservedBits => 0x02
      | some .misalignedPair => 0x03
      | some .notLocked => 0x04
      | some .busy => 0x05
      | some .badChain => 0x06

/-! ## Reset -/

/-- R53: the values after reset that the spec gives, for every build. The other registers' values are the model's (entry 2)
and stand in no clause here. -/
def Obligations.ResetValues : Prop :=
  ∀ b : Build, let s := State.resetOf b
    ctrlWord s.ctrl = 0 ∧ s.ctrl = ⟨false, false, false⟩ ∧
    s.statusWord = 0 ∧ s.busy = false ∧ s.status = ⟨false, false, false, none⟩ ∧
    readData .id s = 0x53460001 ∧ readData .cfg0 s = cfg0Word b ∧ readData .cfg1 s = 0x00100100 ∧
    (∀ i, (readData (.chainStep i) s).toNat / 2 ^ 24 = 0) ∧
    s.engine = none ∧ s.irq = false

/-- 70_reset_and_hazards.md R290, R291: a reset edge leaves CTRL = 0, STATUS = 0, the engine idle and irq = 0, abandons a
command in flight, and gives an access presented at it no effect: the rest of the state does not depend on it. -/
def Obligations.ResetEdgeLeaves : Prop :=
  ∀ (s : State) (a : Option Access) (rest : List Event), s.script = .reset a :: rest →
    ∃ t, step s = .next t ∧ ctrlWord t.ctrl = 0 ∧ t.statusWord = 0 ∧ t.engine = none ∧ t.irq = false ∧
      t.build = s.build ∧ t.script = rest ∧
      ∀ u, step { s with script := .reset none :: rest } = .next u → { t with resp := u.resp, fresh := u.fresh } = u

/-! ## The bus -/

/-- 20_memory.md R76, R80 to R83: an access gets SLVERR in exactly these cases, and then changes nothing but the response,
which is 0 for a read; every other access is answered OKAY. That a write to a slot k >= L of the P or R2 window while
LOCK = 1 is among the cases is the model's choice between R73 with R81 and R80 with R83 (entry 16, DESIGN CHOICE). -/
def Obligations.SlverrExactly : Prop :=
  ∀ (s t : State) (a : Access) (rest : List Event), s.script = .access a :: rest → step s = .next t →
    let n := a.addr.toNat
    let bad := (n % 4 ≠ 0 ∨ a.strb ≠ 0xF) ∨ unmappedOffset n ∨ (fOffset n ∧ s.busy = true) ∨
      (a.write = true ∧ frozenOffset n ∧ s.ctrl.lock = true)
    (bad → t = { s with script := rest, resp := some ⟨true, if a.write then none else some 0⟩ }) ∧
    (¬bad → ∃ d, t.resp = some ⟨false, d⟩ ∧ d.isSome = !a.write)

/-- 20_memory.md R77: a read changes nothing but the response. -/
def Obligations.ReadsHaveNoSideEffect : Prop :=
  ∀ (s t : State) (a : Access) (rest : List Event), s.script = .access a :: rest → a.write = false →
    step s = .next t → t = { s with script := rest, resp := t.resp }

/-- 10_state.md R45 to R48: what ID, CFG0, CFG1 and CMD read as, in every state of a legal build; writes to the first
three change nothing. -/
def Obligations.IdentificationRegisters : Prop :=
  ∀ (s : State) (rest : List Event), s.build.wf = true →
    let reads (offset : Nat) (v : Word) : Prop := s.script = .access (readAt offset) :: rest →
      step s = .next { s with script := rest, resp := some ⟨false, some v⟩ }
    reads 0x0000 0x53460001 ∧
    reads 0x0008 (BitVec.ofNat 32 (256 + 16 * 2 ^ 16)) ∧
    reads 0x0018 0 ∧
    (s.script = .access (readAt 0x0004) :: rest → ∃ v : Word,
      step s = .next { s with script := rest, resp := some ⟨false, some v⟩ } ∧
        v.toNat % 2 ^ 8 = s.build.w ∧ v.toNat / 2 ^ 8 % 2 ^ 8 = s.build.words ∧ v.toNat / 2 ^ 16 % 2 ^ 8 = 32 ∧
        v.toNat / 2 ^ 24 = (s.build.w * s.build.words + 31) / 32) ∧
    ∀ offset v, offset = 0x0000 ∨ offset = 0x0004 ∨ offset = 0x0008 → s.script = .access (writeAt offset v) :: rest →
      step s = .next { s with script := rest, resp := some ⟨false, none⟩ }

/-- 10_state.md R40, 20_memory.md R78: a write to CTRL sets LOCK or leaves it, and writes IE_DONE and IE_ERR, in any state;
CTRL reads LOCK, IE_DONE and IE_ERR in bits 0 to 2 and zeros above. -/
def Obligations.CtrlRegister : Prop :=
  (∀ (s : State) (v : Word) (rest : List Event), s.script = .access (writeAt 0x0010 v) :: rest →
    step s = .next { s with
      script := rest
      resp := some ⟨false, none⟩
      ctrl := ⟨s.ctrl.lock || v.getLsbD 0, v.getLsbD 1, v.getLsbD 2⟩ }) ∧
  (∀ (s : State) (rest : List Event), s.script = .access (readAt 0x0010) :: rest →
    ∃ d : Word, step s = .next { s with script := rest, resp := some ⟨false, some d⟩ } ∧
      d.getLsbD 0 = s.ctrl.lock ∧ d.getLsbD 1 = s.ctrl.ieDone ∧ d.getLsbD 2 = s.ctrl.ieErr ∧ d.toNat / 2 ^ 3 = 0)

/-- 10_state.md R41, 60_exceptions.md R271: a write to STATUS clears DONE, and ERR with ERRCODE, where a 1 is written, and
changes neither BUSY nor C nor anything else. -/
def Obligations.StatusWriteOneClears : Prop :=
  ∀ (s : State) (v : Word) (rest : List Event), s.script = .access (writeAt 0x0014 v) :: rest →
    ∃ t, step s = .next t ∧ t = { s with script := rest, resp := some ⟨false, none⟩, status := t.status } ∧
      t.status.c = s.status.c ∧ t.busy = s.busy ∧
      t.status.done = (if v.getLsbD 1 then false else s.status.done) ∧
      t.status.err = (if v.getLsbD 2 then false else s.status.err) ∧
      t.status.errcode = (if v.getLsbD 2 then none else s.status.errcode)

/-- 20_memory.md R73, R78, R82, R83: a write to limb k of F[r] while CORE is idle, or of P or R2 while LOCK = 0, replaces
that limb, cut to w*W bits, and nothing else: no other limb of the register, no other register, no other state. -/
def Obligations.LimbWrite : Prop :=
  ∀ (s : State) (r : Reg) (k : Nat) (v : Word) (rest : List Event), s.Inv → k < s.build.limbs →
    let writes (offset : Nat) : Prop := s.script = .access (writeAt (offset + 4 * k) v) :: rest
    let replaced (x y : Nat) : Prop :=
      limb k y = v.toNat % 2 ^ (s.build.elemBits - 32 * k) ∧ ∀ j, j ≠ k → limb j y = limb j x
    (s.busy = false → writes (0x1000 + 0x80 * r.val) →
      ∃ t, step s = .next t ∧ t = { s with script := rest, resp := some ⟨false, none⟩, f := t.f } ∧
        (∀ q, q ≠ r → t.reg q = s.reg q) ∧ replaced (s.reg r) (t.reg r)) ∧
    (s.ctrl.lock = false → writes 0x0080 →
      ∃ x, step s = .next { s with
          script := rest, resp := some ⟨false, none⟩, consts := { s.consts with p := x } } ∧
        replaced s.consts.p x) ∧
    (s.ctrl.lock = false → writes 0x0100 →
      ∃ x, step s = .next { s with
          script := rest, resp := some ⟨false, none⟩, consts := { s.consts with r2 := x } } ∧
        replaced s.consts.r2 x)

/-- 20_memory.md R73, R75: slot k of an element window reads bits 32k+31 to 32k of the register's value, and 0 for
k >= L; the windows are those of F[r] (while CORE is idle), P and R2. -/
def Obligations.LimbRead : Prop :=
  ∀ (s : State) (r : Reg) (k : Nat) (rest : List Event), s.Inv → k < 32 →
    let reads (offset x : Nat) : Prop := s.script = .access (readAt (offset + 4 * k)) :: rest →
      ∃ d : Word, step s = .next { s with script := rest, resp := some ⟨false, some d⟩ } ∧
        d.toNat = if k < s.build.limbs then x / 2 ^ (32 * k) % 2 ^ 32 else 0
    (s.busy = false → reads (0x1000 + 0x80 * r.val) (s.reg r)) ∧
    reads 0x0080 s.consts.p ∧ reads 0x0100 s.consts.r2

/-- 20_memory.md R73, R81: a write to a slot k >= L of an F window while CORE is idle, or of the P or R2 window while
LOCK = 0, is answered OKAY and ignored. -/
def Obligations.SlotsAboveLIgnoreWrites : Prop :=
  ∀ (s : State) (r : Reg) (k : Nat) (v : Word) (rest : List Event), s.build.limbs ≤ k → k < 32 →
    (s.busy = false → s.script = .access (writeAt (0x1000 + 0x80 * r.val + 4 * k) v) :: rest →
      step s = .next { s with script := rest, resp := some ⟨false, none⟩ }) ∧
    (s.ctrl.lock = false →
      s.script = .access (writeAt (0x0080 + 4 * k) v) :: rest ∨ s.script = .access (writeAt (0x0100 + 4 * k) v) :: rest →
      step s = .next { s with script := rest, resp := some ⟨false, none⟩ })

/-- 20_memory.md R73: the value of a register is the sum of its limbs. -/
def Obligations.LimbsAssembleTheValue : Prop :=
  ∀ (b : Build) (x : Nat), x < b.radix → x = ∑ k ∈ Finset.range b.limbs, limb k x * 2 ^ (32 * k)

/-- 20_memory.md R74, R83: PPRIME_LO and PPRIME_HI write and read the low and the high half of PPRIME; for w <= 32
PPRIME_HI ignores writes and reads 0, and bits of PPRIME_LO at or above w are ignored. -/
def Obligations.PprimeSlots : Prop :=
  ∀ (s : State) (v : Word) (rest : List Event), s.Inv →
    (s.ctrl.lock = false → s.script = .access (writeAt 0x0028 v) :: rest →
      step s = .next { s with
        script := rest
        resp := some ⟨false, none⟩
        consts := { s.consts with
          pprime := if s.build.wordBits = .w64 then 2 ^ 32 * (s.consts.pprime / 2 ^ 32) + v.toNat
            else v.toNat % 2 ^ s.build.w } }) ∧
    (s.ctrl.lock = false → s.script = .access (writeAt 0x002C v) :: rest →
      step s = .next { s with
        script := rest
        resp := some ⟨false, none⟩
        consts := { s.consts with
          pprime := if s.build.wordBits = .w64 then s.consts.pprime % 2 ^ 32 + 2 ^ 32 * v.toNat
            else s.consts.pprime } }) ∧
    (s.script = .access (readAt 0x0028) :: rest →
      step s = .next { s with
        script := rest, resp := some ⟨false, some (BitVec.ofNat 32 (s.consts.pprime % 2 ^ 32))⟩ }) ∧
    (s.script = .access (readAt 0x002C) :: rest →
      step s = .next { s with
        script := rest, resp := some ⟨false, some (BitVec.ofNat 32 (s.consts.pprime / 2 ^ 32))⟩ })

/-- 10_state.md R37, R38: while LOCK = 0, CHAIN_CFG and CHAIN_STEP[i] read back what was written, but for the reserved bits
[31:24] of CHAIN_STEP[i], which read 0; their fields are those bits; nothing else changes. 20_memory.md R77, R83,
70_reset_and_hazards.md R296: in every state, whatever LOCK and BUSY, a read answers the stored fields. -/
def Obligations.ChainRegistersReadBack : Prop :=
  (∀ (s : State) (rest : List Event),
    let reads (offset : Nat) (d : Word) : Prop := s.script = .access (readAt offset) :: rest →
      step s = .next { s with script := rest, resp := some ⟨false, some d⟩ }
    reads 0x0020 (s.chain.nsteps ++ s.chain.j0 ++ s.chain.npow) ∧
    ∀ i : Fin 256, reads (0x0400 + 4 * i.val) ((0 : BitVec 8) ++ s.chain.steps[i.val].j ++ s.chain.steps[i.val].k)) ∧
  ∀ (s : State) (v : Word) (rest : List Event), s.ctrl.lock = false →
    (s.script = .access (writeAt 0x0020 v) :: .access (readAt 0x0020) :: rest →
      ∃ t, step s = .next t ∧
        t = { s with script := .access (readAt 0x0020) :: rest, resp := some ⟨false, none⟩, chain := t.chain } ∧
        t.chain.steps = s.chain.steps ∧ t.chain.npow = v.setWidth 8 ∧ t.chain.j0 = (v >>> 8).setWidth 8 ∧
        t.chain.nsteps = (v >>> 16).setWidth 16 ∧
        step t = .next { t with script := rest, resp := some ⟨false, some v⟩ }) ∧
    ∀ i : Fin 256,
      s.script = .access (writeAt (0x0400 + 4 * i.val) v) :: .access (readAt (0x0400 + 4 * i.val)) :: rest →
      ∃ t, step s = .next t ∧
        t = { s with
              script := .access (readAt (0x0400 + 4 * i.val)) :: rest
              resp := some ⟨false, none⟩
              chain := { s.chain with
                steps := s.chain.steps.set i.val ⟨v.setWidth 16, (v >>> 16).setWidth 8⟩ } } ∧
        step t = .next { t with script := rest, resp := some ⟨false, some (v &&& 0x00FFFFFF)⟩ }

/-- 10_state.md R40, 20_memory.md R83: once LOCK = 1, no step but a reset edge clears it or changes P, R2, PPRIME,
CHAIN_CFG or CHAIN_STEP[]. -/
def Obligations.LockFreezesConstants : Prop :=
  ∀ s t : State, step s = .next t → s.ctrl.lock = true →
    ResetHits s ∨ (t.ctrl.lock = true ∧ t.consts = s.consts ∧ t.chain = s.chain)

/-- 00_scope.md R7, R8: no step changes the build parameters; the model's choice that they stand in the state (entry 1) is
harmless. -/
def Obligations.BuildIsFixed : Prop := ∀ s t : State, step s = .next t → t.build = s.build

/-! ## What each command does -/

/-- 40_multiprecision.md R140, R141: MPADD with D = 0 and D = 1, its carry-out, and nothing else changed. -/
def Obligations.MpaddResult : Prop :=
  ∀ (s : State) (rd rs1 rs2 : Reg), s.Ready →
    (let sum := s.reg rs1 + s.reg rs2
     RunsTo (.mpadd false rd rs1 rs2) s
       (s.finished (s.f.set rd.val (sum % s.build.radix)) (decide (s.build.radix ≤ sum)))) ∧
    (rd.val % 2 = 0 → rs1.val % 2 = 0 → rs2.val % 2 = 0 →
      let value (r : Reg) := s.reg r + s.reg (r + 1) * s.build.radix
      let sum := value rs1 + value rs2
      RunsTo (.mpadd true rd rs1 rs2) s
        (s.finished ((s.f.set rd.val (sum % s.build.radix)).set (rd + 1).val
          (sum % s.build.radix ^ 2 / s.build.radix)) (decide (s.build.radix ^ 2 ≤ sum))))

/-- 40_multiprecision.md R140, R142: MPSUB with D = 0 and D = 1, its borrow-out, and nothing else changed. -/
def Obligations.MpsubResult : Prop :=
  ∀ (s : State) (rd rs1 rs2 : Reg), s.Inv → s.Ready →
    (let a := s.reg rs1
     let b := s.reg rs2
     RunsTo (.mpsub false rd rs1 rs2) s
       (s.finished (s.f.set rd.val (if b ≤ a then a - b else a + s.build.radix - b)) (decide (a < b)))) ∧
    (rd.val % 2 = 0 → rs1.val % 2 = 0 → rs2.val % 2 = 0 →
      let value (r : Reg) := s.reg r + s.reg (r + 1) * s.build.radix
      let a := value rs1
      let b := value rs2
      let d := if b ≤ a then a - b else a + s.build.radix ^ 2 - b
      RunsTo (.mpsub true rd rs1 rs2) s
        (s.finished ((s.f.set rd.val (d % s.build.radix)).set (rd + 1).val (d / s.build.radix)) (decide (a < b))))

/-- 40_multiprecision.md R143, R144: the shifts by one bit, the bit shifted out, and nothing else changed. -/
def Obligations.MpShiftResults : Prop :=
  ∀ (s : State) (rd rs1 : Reg), s.Inv → s.Ready →
    (let a := s.reg rs1
     RunsTo (.mpshl1 rd rs1) s
       (s.finished (s.f.set rd.val (if s.build.radix ≤ 2 * a then 2 * a - s.build.radix else 2 * a))
         (decide (s.build.radix ≤ 2 * a))) ∧
     RunsTo (.mpshr1 rd rs1) s (s.finished (s.f.set rd.val (a / 2)) (decide (a % 2 = 1))))

/-- 41_montgomery.md R165 to R167: FMUL, FSQR and FTOM write the Montgomery product, and nothing else changes. -/
def Obligations.MontgomeryMultiplyResults : Prop :=
  ∀ (s : State) (rd rs1 rs2 : Reg), s.Ready →
    RunsTo (.fmul rd rs1 rs2) s
      (s.finished (s.f.set rd.val (montRed s.build s.consts (s.reg rs1 * s.reg rs2))) s.status.c) ∧
    RunsTo (.fsqr rd rs1) s
      (s.finished (s.f.set rd.val (montRed s.build s.consts (s.reg rs1 * s.reg rs1))) s.status.c) ∧
    RunsTo (.ftom rd rs1) s
      (s.finished (s.f.set rd.val (montRed s.build s.consts (s.reg rs1 * s.consts.r2))) s.status.c)

/-- 41_montgomery.md R163, R168, R169: FFROMM and FCORR write the corrected value, by two conditional subtractions, and
nothing else changes. -/
def Obligations.CorrectionResults : Prop :=
  ∀ (s : State) (rd rs1 : Reg), s.Ready →
    let once (x : Nat) := if s.consts.p ≤ x then x - s.consts.p else x
    RunsTo (.fcorr rd rs1) s (s.finished (s.f.set rd.val (once (once (s.reg rs1)))) s.status.c) ∧
    RunsTo (.ffromm rd rs1) s
      (s.finished (s.f.set rd.val (once (once (montRed s.build s.consts (s.reg rs1))))) s.status.c)

/-- 42_field_addsub.md R190 to R193, R195 to R198: FADD, FSUB, FNEG and FHALF on every operand value, and nothing else
changes. -/
def Obligations.AddSubResults : Prop :=
  ∀ (s : State) (rd rs1 rs2 : Reg), s.Ready →
    let a := s.reg rs1
    let b := s.reg rs2
    let p := s.consts.p
    let R := s.build.radix
    let wraps (d : Int) : Nat := (d % (R : Int)).toNat
    RunsTo (.fadd rd rs1 rs2) s
      (s.finished (s.f.set rd.val ((if 2 * p ≤ a + b then a + b - 2 * p else a + b) % R)) s.status.c) ∧
    RunsTo (.fsub rd rs1 rs2) s
      (s.finished (s.f.set rd.val (if b ≤ a then (a - b) % R else wraps ((a : Int) - b + 2 * p))) s.status.c) ∧
    RunsTo (.fneg rd rs1) s
      (s.finished (s.f.set rd.val (if a = 0 then 0 else wraps (2 * (p : Int) - a))) s.status.c) ∧
    RunsTo (.fhalf rd rs1) s
      (s.finished (s.f.set rd.val ((if a % 2 = 1 then a + p else a) / 2 % R)) s.status.c)

/-- 43_inversion.md R213, R215, R216: with a valid chain table FINVC writes Chain(a), and FINV the chain's value squared
twice and multiplied by a; nothing else changes. -/
def Obligations.InversionResults : Prop :=
  ∀ (s : State) (rd rs1 : Reg), s.Ready → s.chain.valid = true →
    let mul := montMul s.build s.consts
    let a := s.reg rs1
    let t := chain s.build s.consts s.chain a
    RunsTo (.finvc rd rs1) s (s.finished (s.f.set rd.val t) s.status.c) ∧
    RunsTo (.finv rd rs1) s
      (s.finished (s.f.set rd.val (mul (mul (mul t t) (mul t t)) a)) s.status.c)

/-- 44_gfp2.md R231 to R235, R239, R240: the component-wise commands on pairs named by even registers write both
components, and nothing else changes. -/
def Obligations.ComponentwiseResults : Prop :=
  ∀ (s : State) (rd rs1 rs2 : Reg), s.Ready → rd.val % 2 = 0 → rs1.val % 2 = 0 → rs2.val % 2 = 0 →
    let a0 := s.reg rs1
    let a1 := s.reg (rs1 + 1)
    let b0 := s.reg rs2
    let b1 := s.reg (rs2 + 1)
    let writes (i : Instr) (c0 c1 : Nat) : Prop :=
      RunsTo i s (s.finished ((s.f.set rd.val c0).set (rd + 1).val c1) s.status.c)
    let B := s.build
    let K := s.consts
    writes (.f2add rd rs1 rs2) (modAdd B K a0 b0) (modAdd B K a1 b1) ∧
    writes (.f2sub rd rs1 rs2) (modSub B K a0 b0) (modSub B K a1 b1) ∧
    writes (.f2neg rd rs1) (modSub B K 0 a0) (modSub B K 0 a1) ∧
    writes (.f2half rd rs1) (half B K a0) (half B K a1) ∧
    writes (.f2corr rd rs1) (corr K a0) (corr K a1) ∧
    writes (.f2tom rd rs1) (montMul B K a0 K.r2) (montMul B K a1 K.r2) ∧
    writes (.f2fromm rd rs1) (corr K (montRed B K a0)) (corr K (montRed B K a1))

/-- 44_gfp2.md R236, R237, R238: the sequences of F2MUL, F2SQR and (with a valid chain table) F2INV; nothing else
changes. -/
def Obligations.Gfp2MultiplicativeResults : Prop :=
  ∀ (s : State) (rd rs1 rs2 : Reg), s.Ready → rd.val % 2 = 0 → rs1.val % 2 = 0 → rs2.val % 2 = 0 →
    let a0 := s.reg rs1
    let a1 := s.reg (rs1 + 1)
    let b0 := s.reg rs2
    let b1 := s.reg (rs2 + 1)
    let writes (i : Instr) (c0 c1 : Nat) : Prop :=
      RunsTo i s (s.finished ((s.f.set rd.val c0).set (rd + 1).val c1) s.status.c)
    let mul := montMul s.build s.consts
    let add := modAdd s.build s.consts
    let sub := modSub s.build s.consts
    writes (.f2mul rd rs1 rs2) (sub (mul a0 b0) (mul a1 b1))
      (sub (sub (mul (add a0 a1) (add b0 b1)) (mul a0 b0)) (mul a1 b1)) ∧
    writes (.f2sqr rd rs1) (mul (add a0 a1) (sub a0 a1)) (mul (add a0 a0) a1) ∧
    (s.chain.valid = true →
      let ni := inv s.build s.consts s.chain (add (mul a0 a0) (mul a1 a1))
      writes (.f2inv rd rs1) (mul a0 ni) (mul (sub 0 a1) ni))

/-! ## The arithmetic -/

/-- R161: MontRed is the W reduction steps, low word first, and the quotient by R truncated to W words; the running T never
exceeds R^2 + R*P < 2*R^2 for a double-width T, and stays below R^2 for a T in the domain p*R. -/
def Obligations.MontRedIsWordSerial : Prop :=
  ∀ (b : Build) (k : Constants) (t : Nat), ∃ T m : Nat → Nat,
    T 0 = t ∧
    (∀ i, i < b.words → m i = (T i / 2 ^ (b.w * i) % 2 ^ b.w * k.pprime) % 2 ^ b.w ∧
      T (i + 1) = T i + m i * k.p * 2 ^ (b.w * i)) ∧
    montRed b k t = T b.words / b.radix % b.radix ∧
    (t < b.radix ^ 2 → ∀ i, i ≤ b.words → T i ≤ b.radix ^ 2 + b.radix * k.p) ∧
    (k.p < b.radix → b.radix ^ 2 + b.radix * k.p < 2 * b.radix ^ 2) ∧
    (Headroom b k → t < k.p * b.radix → T b.words < b.radix ^ 2)

/-- 41_montgomery.md R164 items 1 and 2: below p*R, MontRed(T) is below 2p and MontRed(T)*R ≡ T (mod p). -/
def Obligations.MontRedReduces : Prop :=
  ∀ (b : Build) (k : Constants) (t : Nat), Headroom b k → Consistent b k → t < k.p * b.radix →
    montRed b k t < 2 * k.p ∧ montRed b k t * b.radix ≡ t [MOD k.p]

/-- 41_montgomery.md R164 item 3: below R, MontRed(T) <= p, with equality exactly for a nonzero multiple of p. -/
def Obligations.MontRedOfSingleWidth : Prop :=
  ∀ (b : Build) (k : Constants) (t : Nat), Headroom b k → Consistent b k → t < b.radix →
    montRed b k t ≤ k.p ∧ (montRed b k t = k.p ↔ t ≠ 0 ∧ k.p ∣ t)

/-- 41_montgomery.md R164 items 4 and 5: Corr is canonical below 3p and a single subtraction below 2p; MontMul commutes. -/
def Obligations.CorrAndCommutativity : Prop :=
  (∀ (k : Constants) (x : Nat), x < 3 * k.p → corr k x < k.p ∧ corr k x % k.p = x % k.p ∧
    (x < 2 * k.p → corr k x = if k.p ≤ x then x - k.p else x)) ∧
  ∀ (b : Build) (k : Constants) (x y : Nat), montMul b k x y = montMul b k y x

/-- 42_field_addsub.md R194 items 1 to 4: ModAdd, ModSub, ModNeg and Half stay in [0,2p) and compute modulo p. -/
def Obligations.RelaxedRangeIsClosed : Prop :=
  ∀ (b : Build) (k : Constants) (x y : Nat), Headroom b k → x < 2 * k.p → y < 2 * k.p →
    (modAdd b k x y < 2 * k.p ∧ modAdd b k x y ≡ x + y [MOD k.p]) ∧
    (modSub b k x y < 2 * k.p ∧ modSub b k x y + y ≡ x [MOD k.p]) ∧
    (modNeg b k x < 2 * k.p ∧ modNeg b k x + x ≡ 0 [MOD k.p]) ∧
    (half b k x < 2 * k.p ∧ 2 * half b k x ≡ x [MOD k.p])

/-- 41_montgomery.md R172: the round trip through the Montgomery domain, the identity property, and FMUL associative after
correction. -/
def Obligations.MontgomeryDomainLaws : Prop :=
  ∀ (b : Build) (k : Constants), Headroom b k → Consistent b k →
    (∀ a, a < k.p → corr k (montRed b k (montMul b k a k.r2)) = a) ∧
    (∀ a, a < k.p →
      corr k (montMul b k (montMul b k 1 k.r2) (montMul b k a k.r2)) = corr k (montMul b k a k.r2)) ∧
    (∀ x y z, x < 2 * k.p → y < 2 * k.p → z < 2 * k.p →
      corr k (montMul b k (montMul b k x y) z) = corr k (montMul b k x (montMul b k y z)))

/-- R211, R212: Chain is the interpreter of the table: the odd powers by multiplication with a^2, the start at pw[J0], and
for each step K squarings and a multiplication by pw[J] unless J = 0xFF. -/
def Obligations.ChainIsTheInterpreter : Prop :=
  ∀ (b : Build) (k : Constants) (t : ChainTable) (a : Nat), t.valid = true → ∃ pw acc : Nat → Nat,
    pw 0 = a ∧ (∀ j, j + 1 < t.npow.toNat → pw (j + 1) = montMul b k (pw j) (montMul b k a a)) ∧
    acc 0 = pw t.j0.toNat ∧
    (∀ i : Fin 256, i.val < t.nsteps.toNat →
      let squared := (fun x => montMul b k x x)^[t.steps[i.val].k.toNat] (acc i.val)
      acc (i.val + 1) = if t.steps[i.val].j = 0xFF then squared else montMul b k squared (pw t.steps[i.val].j.toNat)) ∧
    chain b k t a = acc t.nsteps.toNat

/-- 43_inversion.md R214, R219: for a ≡ x*R in [0,2p), Chain(a) ≡ x^E * R and Inv(a) ≡ x^(4E+1) * R (mod p), both in
[0,2p). -/
def Obligations.ChainComputesThePower : Prop :=
  ∀ (b : Build) (k : Constants) (t : ChainTable) (a x : Nat), Headroom b k → Consistent b k → t.valid = true →
    a < 2 * k.p → a ≡ x * b.radix [MOD k.p] →
      (chain b k t a < 2 * k.p ∧ chain b k t a ≡ x ^ t.exponent * b.radix [MOD k.p]) ∧
      (inv b k t a < 2 * k.p ∧ inv b k t a ≡ x ^ (4 * t.exponent + 1) * b.radix [MOD k.p])

/-- 43_inversion.md R220: with p prime and a chain of exponent (p-3)/4, FINV inverts every a ≢ 0 in [0,2p). -/
def Obligations.FinvInverts : Prop :=
  ∀ (b : Build) (k : Constants) (t : ChainTable) (a : Nat), Headroom b k → Consistent b k → k.p.Prime →
    t.valid = true → t.exponent = (k.p - 3) / 4 → a < 2 * k.p → ¬ k.p ∣ a →
      corr k (montMul b k a (inv b k t a)) = corr k (montMul b k 1 k.r2)

/-- 43_inversion.md R217, 44_gfp2.md R238: inverting 0 gives 0 and inverting p gives p, in the chain alone too; F2INV of
(0, 0) is (0, 0) and of (p, 0) is (p, 0), and its sequence gives the other two pairs of zeros modulo p in the relaxed range:
(0, p) for (0, p) and (0, 0) for (p, p), whose norm 2p ModAdd takes to 0. -/
def Obligations.InvertingZero : Prop :=
  ∀ (b : Build) (k : Constants) (t : ChainTable), Headroom b k → Consistent b k → t.valid = true →
    chain b k t 0 = 0 ∧ inv b k t 0 = 0 ∧ chain b k t k.p = k.p ∧ inv b k t k.p = k.p ∧
    fp2Inv b k t (0, 0) = (0, 0) ∧ fp2Inv b k t (k.p, 0) = (k.p, 0) ∧
    fp2Inv b k t (0, k.p) = (0, k.p) ∧ fp2Inv b k t (k.p, k.p) = (0, 0)

/-- 44_gfp2.md R241 items 1 to 3: in the relaxed range, F2MUL stays in range and computes the product of GF(p²) with the
factor R^(-1), and F2SQR equals F2MUL(a, a) after correction. -/
def Obligations.Gfp2MultiplyIsCorrect : Prop :=
  ∀ (b : Build) (k : Constants) (x y : Nat × Nat), Headroom b k → Consistent b k →
    x.1 < 2 * k.p → x.2 < 2 * k.p → y.1 < 2 * k.p → y.2 < 2 * k.p →
      let c := fp2Mul b k x y
      let q := fp2Sqr b k x
      let m := fp2Mul b k x x
      (c.1 < 2 * k.p ∧ c.2 < 2 * k.p) ∧
      c.1 * b.radix + x.2 * y.2 ≡ x.1 * y.1 [MOD k.p] ∧ c.2 * b.radix ≡ x.1 * y.2 + x.2 * y.1 [MOD k.p] ∧
      (q.1 < 2 * k.p ∧ q.2 < 2 * k.p) ∧ corr k q.1 = corr k m.1 ∧ corr k q.2 = corr k m.2

/-- 44_gfp2.md R241 item 4: with p prime and a chain of exponent (p-3)/4, F2INV inverts every a ≢ (0, 0) in the relaxed
range. -/
def Obligations.F2invInverts : Prop :=
  ∀ (b : Build) (k : Constants) (t : ChainTable) (x : Nat × Nat), Headroom b k → Consistent b k → k.p.Prime →
    t.valid = true → t.exponent = (k.p - 3) / 4 → x.1 < 2 * k.p → x.2 < 2 * k.p → ¬ (k.p ∣ x.1 ∧ k.p ∣ x.2) →
      let c := fp2Mul b k x (fp2Inv b k t x)
      corr k c.1 = b.radix % k.p ∧ corr k c.2 = 0

/-! ## Whole-machine statements -/

/-- The invariant holds after reset, for every legal build (entry 2's zeros are element values of every build). -/
def Obligations.ResetMeetsTheInvariant : Prop := ∀ b : Build, b.wf = true → (State.resetOf b).Inv

/-- Every step keeps the invariant: every register holds an element value (10_state.md R31), ERRCODE is 0x00 exactly when
ERR = 0 (R44), and a command in flight runs under LOCK with DONE = 0 (R43). -/
def Obligations.StepKeepsTheInvariant : Prop := ∀ s t : State, s.Inv → step s = .next t → t.Inv

/-- 10_state.md R50, 20_memory.md R86: a command's result is a function of its source operands, the constants and the
chain table alone: two ready states that agree on these accept it with the same result. -/
def Obligations.ResultDependsOnlyOnSources : Prop :=
  ∀ (i : Instr) (s t : State), s.Ready → t.Ready → i.wf = true → s.build = t.build → s.consts = t.consts →
    s.chain = t.chain → ((profile i).chain = true → s.chain.valid = true) →
    (∀ r ∈ (profile i).sources, s.reg r = t.reg r) →
      ∃ r, exec i s = .next { s with engine := some r, status := { s.status with done := false } } ∧
        exec i t = .next { t with engine := some r, status := { t.status with done := false } }

/-- 20_memory.md R82, R85, R86: whatever accesses the host makes between a command's acceptance and its completion, the
registers and C that its completion leaves are those of a completion at once. -/
def Obligations.AccessesCannotDisturbACommand : Prop :=
  ∀ (as : List Access) (t u : State), t.busy = true → t.script = as.map Event.access →
    Host.Core.run Sys2Proof.core as.length t = .next u →
      u.busy = true ∧ (engineTurn u).f = (engineTurn t).f ∧ (engineTurn u).status.c = (engineTurn t).status.c ∧
        u.f = t.f ∧ (engineTurn u).status.done = true ∧ (engineTurn u).busy = false

/-- 70_reset_and_hazards.md R300, 60_exceptions.md R265: no operand value has an effect on control: states that differ at
most in F, in the values a command in flight will write, in C and in the data last read, step to such states: the same
commands are accepted and rejected with the same codes, and BUSY, DONE, ERR, irq and SLVERR are the same. -/
def Obligations.ControlIndependentOfOperands : Prop :=
  ∀ s t s' : State, SameControl s t → step s = .next s' →
    ∃ t', step t = .next t' ∧ SameControl s' t' ∧ s'.busy = t'.busy ∧ s'.irq = t'.irq

/-- 10_state.md R55, 92_eei_decisions.md D40, entry 2: a step that reads nothing unwritten does not show the values the
model's reset chose: from states that agree on all written storage it leads to states that do, with the same response. -/
def Obligations.UnwrittenValuesStayInvisible : Prop :=
  ∀ (w : Written) (s t s' : State), s.Inv → t.Inv → AgreeOn w s t → w.safe s = true → step s = .next s' →
    ∃ t', step t = .next t' ∧ AgreeOn (w.next s) s' t'
end

