-- ==== Sys2Proof/Laws/Datapath.lean ====
section
/-! SUPPORT. What the datapath functions return: every result is an element value, and the reduction loop adds a multiple
of P that clears the low words. -/

namespace Sys2Proof.Machine

variable (b : Build) (k : Constants)

theorem radix_pos : 0 < b.radix := Nat.two_pow_pos _

theorem radix_eq : b.radix = 2 ^ (b.w * b.words) := rfl

theorem montRed_lt (t : Nat) : montRed b k t < b.radix := Nat.mod_lt _ (radix_pos b)

theorem montMul_lt (x y : Nat) : montMul b k x y < b.radix := montRed_lt b k _

theorem modAdd_lt (x y : Nat) : modAdd b k x y < b.radix := Nat.mod_lt _ (radix_pos b)

theorem half_lt (x : Nat) : half b k x < b.radix := Nat.mod_lt _ (radix_pos b)

theorem toNat_emod_lt (d : Int) {n : Nat} (h : 0 < n) : (d % (n : Int)).toNat < n := by
  have h0 : (0 : Int) < (n : Int) := by exact_mod_cast h
  have h1 := Int.emod_nonneg d (ne_of_gt h0)
  have h2 := Int.emod_lt_of_pos d h0
  omega

theorem modSub_lt (x y : Nat) : modSub b k x y < b.radix := toNat_emod_lt _ (radix_pos b)

theorem modNeg_lt (x : Nat) : modNeg b k x < b.radix := modSub_lt b k 0 x

theorem corrStage_le (x : Nat) : corrStage k x ≤ x := by
  unfold corrStage
  split <;> omega

theorem corr_le (x : Nat) : corr k x ≤ x := (corrStage_le k _).trans (corrStage_le k x)

theorem corr_lt {x n : Nat} (h : x < n) : corr k x < n := (corr_le k x).trans_lt h

/-- Every power of an element value is an element value. -/
theorem powers_lt (sq : Nat) (n x : Nat) (hx : x < b.radix) : ∀ y ∈ powers b k sq n x, y < b.radix := by
  induction n generalizing x with
  | zero => intro y hy; simp [powers] at hy; omega
  | succ n ih =>
    intro y hy
    rcases List.mem_cons.1 hy with rfl | hy
    · exact hx
    · exact ih _ (montMul_lt b k x sq) y hy

theorem powerAt_lt {pw : List Nat} (h : ∀ y ∈ pw, y < b.radix) (j : Nat) : powerAt pw j < b.radix := by
  unfold powerAt
  by_cases hj : j < pw.length
  · rw [List.getD_eq_getElem _ _ hj]; exact h _ (List.getElem_mem hj)
  · rw [List.getD_eq_default _ _ (by omega)]; exact radix_pos b

theorem squarings_lt (n acc : Nat) (h : acc < b.radix) : squarings b k n acc < b.radix := by
  induction n generalizing acc with
  | zero => exact h
  | succ n ih => exact ih _ (montMul_lt b k acc acc)

theorem chainStep_lt (pw : List Nat) (acc : Nat) (st : ChainStep) (h : acc < b.radix) :
    chainStep b k pw acc st < b.radix := by
  unfold chainStep
  split
  · exact squarings_lt b k _ _ h
  · exact montMul_lt b k _ _

theorem foldl_chainStep_lt (pw : List Nat) (l : List ChainStep) (acc : Nat) (h : acc < b.radix) :
    l.foldl (chainStep b k pw) acc < b.radix := by
  induction l generalizing acc with
  | nil => exact h
  | cons st l ih => exact ih _ (chainStep_lt b k pw acc st h)

/-- Chain maps element values to element values. -/
theorem chain_lt (t : ChainTable) {a : Nat} (h : a < b.radix) : chain b k t a < b.radix :=
  foldl_chainStep_lt b k _ _ _ (powerAt_lt b (powers_lt b k _ _ _ h) _)

theorem inv_lt (t : ChainTable) (a : Nat) : inv b k t a < b.radix := montMul_lt b k _ _

theorem fp2Mul_lt (x y : Nat × Nat) : (fp2Mul b k x y).1 < b.radix ∧ (fp2Mul b k x y).2 < b.radix :=
  ⟨modSub_lt b k _ _, modSub_lt b k _ _⟩

theorem fp2Sqr_lt (x : Nat × Nat) : (fp2Sqr b k x).1 < b.radix ∧ (fp2Sqr b k x).2 < b.radix :=
  ⟨montMul_lt b k _ _, montMul_lt b k _ _⟩

theorem fp2Inv_lt (t : ChainTable) (x : Nat × Nat) : (fp2Inv b k t x).1 < b.radix ∧ (fp2Inv b k t x).2 < b.radix :=
  ⟨montMul_lt b k _ _, montMul_lt b k _ _⟩

/-- Word n of a number whose lower words are 0. -/
theorem wordAt_mul (q n : Nat) : wordAt b (2 ^ (b.w * n) * q) n = q % 2 ^ b.w := by
  unfold wordAt
  rw [Nat.mul_div_cancel_left _ (Nat.two_pow_pos _)]

/-- One reduction step clears its word: q + m*p is divisible by 2^w for m = (q * PPRIME) mod 2^w (41_montgomery.md R164). -/
theorem reduction_clears_word {w p pp : Nat} (h : (p * pp + 1) % 2 ^ w = 0) (q : Nat) :
    2 ^ w ∣ q + q % 2 ^ w * pp % 2 ^ w * p := by
  have e : q + q % 2 ^ w * pp % 2 ^ w * p ≡ q * (p * pp + 1) [MOD 2 ^ w] := by
    have h1 : q % 2 ^ w * pp % 2 ^ w ≡ q * pp [MOD 2 ^ w] :=
      (Nat.mod_modEq _ _).trans ((Nat.mod_modEq q _).mul_right pp)
    calc q + q % 2 ^ w * pp % 2 ^ w * p ≡ q + q * pp * p [MOD 2 ^ w] := (h1.mul_right p).add_left q
      _ = q * (p * pp + 1) := by ring
  exact (Nat.modEq_zero_iff_dvd.1 (e.trans (Nat.modEq_zero_iff_dvd.2 ((Nat.dvd_of_mod_eq_zero h).mul_left q))))

/-- After n steps the running T is the first T plus a multiple m*P with m below 2^(w*n), and its n low words are 0. -/
theorem montRedLoop_spec (h : (k.p * k.pprime + 1) % 2 ^ b.w = 0) (t n : Nat) :
    ∃ m, m < 2 ^ (b.w * n) ∧ montRedLoop b k n t = t + m * k.p ∧ 2 ^ (b.w * n) ∣ montRedLoop b k n t := by
  induction n with
  | zero => exact ⟨0, by simp, by simp [montRedLoop], by simp⟩
  | succ n ih =>
    obtain ⟨m, hm, he, q, hq⟩ := ih
    have hs : montRedLoop b k (n + 1) t =
        2 ^ (b.w * n) * (q + q % 2 ^ b.w * k.pprime % 2 ^ b.w * k.p) := by
      show montRedStep b k n (montRedLoop b k n t) = _
      rw [hq, montRedStep, wordAt_mul]
      ring
    have hpow : 2 ^ (b.w * (n + 1)) = 2 ^ (b.w * n) * 2 ^ b.w := by rw [Nat.mul_succ, pow_add]
    refine ⟨m + q % 2 ^ b.w * k.pprime % 2 ^ b.w * 2 ^ (b.w * n), ?_, ?_, ?_⟩
    · have hlt : q % 2 ^ b.w * k.pprime % 2 ^ b.w < 2 ^ b.w := Nat.mod_lt _ (Nat.two_pow_pos _)
      calc m + q % 2 ^ b.w * k.pprime % 2 ^ b.w * 2 ^ (b.w * n)
          < 2 ^ (b.w * n) + q % 2 ^ b.w * k.pprime % 2 ^ b.w * 2 ^ (b.w * n) := by omega
        _ = (q % 2 ^ b.w * k.pprime % 2 ^ b.w + 1) * 2 ^ (b.w * n) := by ring
        _ ≤ 2 ^ b.w * 2 ^ (b.w * n) := Nat.mul_le_mul_right _ hlt
        _ = 2 ^ (b.w * (n + 1)) := by rw [hpow]; ring
    · rw [hs, Nat.mul_add, ← hq, he]
      ring
    · rw [hs, hpow]
      exact Nat.mul_dvd_mul_left _ (reduction_clears_word h q)

/-- What MontRed returns with PPRIME = -P^(-1) mod 2^w: the exact quotient (T + M*P)/R, truncated mod R, for an M below R
(41_montgomery.md R161, R164 item 1). -/
theorem montRed_spec (h : (k.p * k.pprime + 1) % 2 ^ b.w = 0) (t : Nat) :
    ∃ m q, m < b.radix ∧ t + m * k.p = q * b.radix ∧ montRed b k t = q % b.radix := by
  obtain ⟨m, hm, he, q, hq⟩ := montRedLoop_spec b k h t b.words
  rw [← radix_eq] at hm hq
  refine ⟨m, q, hm, by rw [← he, hq, Nat.mul_comm], ?_⟩
  show montRedLoop b k b.words t / b.radix % b.radix = _
  rw [hq, Nat.mul_div_cancel_left _ (radix_pos b)]

section Reads
/-! What each function reads: R2 is read by none of them, PPRIME by MontRed and what is built on it, and of the chain table
only CHAIN_CFG and the first NSTEPS steps. -/

variable {b k} {k' : Constants} (hp : k.p = k'.p) (hpp : k.pprime = k'.pprime)

include hp

theorem corr_congr (x : Nat) : corr k x = corr k' x := by
  unfold corr corrStage
  rw [hp]

theorem modAdd_congr (x y : Nat) : modAdd b k x y = modAdd b k' x y := by
  unfold modAdd
  rw [hp]

theorem modSub_congr (x y : Nat) : modSub b k x y = modSub b k' x y := by
  unfold modSub
  rw [hp]

theorem modNeg_congr (x : Nat) : modNeg b k x = modNeg b k' x := modSub_congr hp 0 x

theorem half_congr (x : Nat) : half b k x = half b k' x := by
  unfold half
  rw [hp]

include hpp

theorem montRed_congr (t : Nat) : montRed b k t = montRed b k' t := by
  have h : ∀ n, montRedLoop b k n t = montRedLoop b k' n t := by
    intro n
    induction n with
    | zero => rfl
    | succ n ih =>
      show montRedStep b k n (montRedLoop b k n t) = montRedStep b k' n (montRedLoop b k' n t)
      rw [ih]
      unfold montRedStep
      rw [hp, hpp]
  unfold montRed
  rw [h]

theorem montMul_congr (x y : Nat) : montMul b k x y = montMul b k' x y := montRed_congr hp hpp _

theorem powers_congr (sq n x : Nat) : powers b k sq n x = powers b k' sq n x := by
  induction n generalizing x with
  | zero => rfl
  | succ n ih =>
    show x :: powers b k sq n (montMul b k x sq) = x :: powers b k' sq n (montMul b k' x sq)
    rw [montMul_congr hp hpp, ih]

theorem squarings_congr (n acc : Nat) : squarings b k n acc = squarings b k' n acc := by
  induction n generalizing acc with
  | zero => rfl
  | succ n ih =>
    show squarings b k n (montMul b k acc acc) = squarings b k' n (montMul b k' acc acc)
    rw [montMul_congr hp hpp, ih]

theorem chainStep_congr (pw : List Nat) (acc : Nat) (st : ChainStep) :
    chainStep b k pw acc st = chainStep b k' pw acc st := by
  unfold chainStep
  rw [squarings_congr hp hpp]
  simp only [montMul_congr hp hpp]

theorem chain_congr {t t' : ChainTable} (hn : t.npow = t'.npow) (hj : t.j0 = t'.j0)
    (hs : t.steps.toList.take t.nsteps.toNat = t'.steps.toList.take t'.nsteps.toNat) (a : Nat) :
    chain b k t a = chain b k' t' a := by
  have h : chainStep b k = chainStep b k' := by
    funext pw acc st
    exact chainStep_congr hp hpp pw acc st
  unfold chain powerTable
  rw [hn, hj, hs, h, montMul_congr hp hpp, powers_congr hp hpp]

theorem inv_congr {t t' : ChainTable} (hn : t.npow = t'.npow) (hj : t.j0 = t'.j0)
    (hs : t.steps.toList.take t.nsteps.toNat = t'.steps.toList.take t'.nsteps.toNat) (a : Nat) :
    inv b k t a = inv b k' t' a := by
  unfold inv
  rw [chain_congr hp hpp hn hj hs]
  simp only [montMul_congr hp hpp]

end Reads

end Sys2Proof.Machine
end

