-- ==== Sys2Proof/Laws/State.lean ====
section
/-! SUPPORT. One lemma per field per update of the state, so that no later proof unfolds a record update. -/

namespace Sys2Proof.Machine

section SetReg
variable (s : State) (r : Reg) (v : Nat)

@[simp] theorem setReg_reg_self : (s.setReg r v).reg r = v := by simp [State.setReg, State.reg]

@[simp] theorem setReg_reg_ne {q : Reg} (h : q ≠ r) : (s.setReg r v).reg q = s.reg q := by
  have : r.val ≠ q.val := fun e => h (Fin.ext e.symm)
  simp [State.setReg, State.reg, Vector.getElem_set_ne, this]

theorem setReg_reg (q : Reg) : (s.setReg r v).reg q = if q = r then v else s.reg q := by
  by_cases h : q = r
  · simp [h]
  · simp [h]

@[simp] theorem setReg_build : (s.setReg r v).build = s.build := rfl
@[simp] theorem setReg_consts : (s.setReg r v).consts = s.consts := rfl
@[simp] theorem setReg_chain : (s.setReg r v).chain = s.chain := rfl
@[simp] theorem setReg_ctrl : (s.setReg r v).ctrl = s.ctrl := rfl
@[simp] theorem setReg_status : (s.setReg r v).status = s.status := rfl
@[simp] theorem setReg_engine : (s.setReg r v).engine = s.engine := rfl
@[simp] theorem setReg_resp : (s.setReg r v).resp = s.resp := rfl
@[simp] theorem setReg_script : (s.setReg r v).script = s.script := rfl
@[simp] theorem setReg_fresh : (s.setReg r v).fresh = s.fresh := rfl

end SetReg

section Respond
variable (s : State) (a : Response)

@[simp] theorem respond_build : (s.respond a).build = s.build := rfl
@[simp] theorem respond_f : (s.respond a).f = s.f := rfl
@[simp] theorem respond_reg (q : Reg) : (s.respond a).reg q = s.reg q := rfl
@[simp] theorem respond_consts : (s.respond a).consts = s.consts := rfl
@[simp] theorem respond_chain : (s.respond a).chain = s.chain := rfl
@[simp] theorem respond_ctrl : (s.respond a).ctrl = s.ctrl := rfl
@[simp] theorem respond_status : (s.respond a).status = s.status := rfl
@[simp] theorem respond_engine : (s.respond a).engine = s.engine := rfl
@[simp] theorem respond_busy : (s.respond a).busy = s.busy := rfl
@[simp] theorem respond_resp : (s.respond a).resp = some a := rfl
@[simp] theorem respond_script : (s.respond a).script = s.script := rfl
@[simp] theorem respond_fresh : (s.respond a).fresh = s.fresh := rfl

end Respond

section TakeEvent
variable (l : List Event) (s : State)

@[simp] theorem takeEvent_build : (takeEvent l s).build = s.build := rfl
@[simp] theorem takeEvent_f : (takeEvent l s).f = s.f := rfl
@[simp] theorem takeEvent_reg (q : Reg) : (takeEvent l s).reg q = s.reg q := rfl
@[simp] theorem takeEvent_consts : (takeEvent l s).consts = s.consts := rfl
@[simp] theorem takeEvent_chain : (takeEvent l s).chain = s.chain := rfl
@[simp] theorem takeEvent_ctrl : (takeEvent l s).ctrl = s.ctrl := rfl
@[simp] theorem takeEvent_status : (takeEvent l s).status = s.status := rfl
@[simp] theorem takeEvent_engine : (takeEvent l s).engine = s.engine := rfl
@[simp] theorem takeEvent_busy : (takeEvent l s).busy = s.busy := rfl
@[simp] theorem takeEvent_resp : (takeEvent l s).resp = none := rfl
@[simp] theorem takeEvent_script : (takeEvent l s).script = l := rfl
@[simp] theorem takeEvent_fresh : (takeEvent l s).fresh = s.fresh := rfl

end TakeEvent

section Accept
variable (r : Result) (s : State)

@[simp] theorem accept_build : (accept r s).build = s.build := rfl
@[simp] theorem accept_f : (accept r s).f = s.f := rfl
@[simp] theorem accept_reg (q : Reg) : (accept r s).reg q = s.reg q := rfl
@[simp] theorem accept_consts : (accept r s).consts = s.consts := rfl
@[simp] theorem accept_chain : (accept r s).chain = s.chain := rfl
@[simp] theorem accept_ctrl : (accept r s).ctrl = s.ctrl := rfl
@[simp] theorem accept_engine : (accept r s).engine = some r := rfl
@[simp] theorem accept_busy : (accept r s).busy = true := rfl
@[simp] theorem accept_done : (accept r s).status.done = false := rfl
@[simp] theorem accept_err : (accept r s).status.err = s.status.err := rfl
@[simp] theorem accept_c : (accept r s).status.c = s.status.c := rfl
@[simp] theorem accept_errcode : (accept r s).status.errcode = s.status.errcode := rfl
@[simp] theorem accept_resp : (accept r s).resp = s.resp := rfl
@[simp] theorem accept_script : (accept r s).script = s.script := rfl
@[simp] theorem accept_fresh : (accept r s).fresh = s.fresh := rfl

end Accept

section Reject
variable (c : RejectCode) (s : State)

@[simp] theorem reject_build : (reject c s).build = s.build := by unfold reject; split <;> rfl
@[simp] theorem reject_f : (reject c s).f = s.f := by unfold reject; split <;> rfl
@[simp] theorem reject_reg (q : Reg) : (reject c s).reg q = s.reg q := by simp [State.reg]
@[simp] theorem reject_consts : (reject c s).consts = s.consts := by unfold reject; split <;> rfl
@[simp] theorem reject_chain : (reject c s).chain = s.chain := by unfold reject; split <;> rfl
@[simp] theorem reject_ctrl : (reject c s).ctrl = s.ctrl := by unfold reject; split <;> rfl
@[simp] theorem reject_engine : (reject c s).engine = s.engine := by unfold reject; split <;> rfl
@[simp] theorem reject_busy : (reject c s).busy = s.busy := by simp [State.busy]
@[simp] theorem reject_done : (reject c s).status.done = s.status.done := by unfold reject; split <;> rfl
@[simp] theorem reject_c : (reject c s).status.c = s.status.c := by unfold reject; split <;> rfl
@[simp] theorem reject_err : (reject c s).status.err = true := by
  unfold reject
  split
  · assumption
  · rfl
@[simp] theorem reject_resp : (reject c s).resp = s.resp := by unfold reject; split <;> rfl
@[simp] theorem reject_script : (reject c s).script = s.script := by unfold reject; split <;> rfl
@[simp] theorem reject_fresh : (reject c s).fresh = s.fresh := by unfold reject; split <;> rfl

/-- The first error wins (10_state.md R44). -/
theorem reject_errcode : (reject c s).status.errcode = if s.status.err then s.status.errcode else some c := by
  unfold reject
  split <;> rfl

end Reject

section WriteDests

@[simp] theorem writeDests_nil (s : State) : writeDests [] s = s := rfl

@[simp] theorem writeDests_cons (d : Reg × Nat) (ds : List (Reg × Nat)) (s : State) :
    writeDests (d :: ds) s = writeDests ds (s.setReg d.1 d.2) := rfl

variable (ds : List (Reg × Nat)) (s : State)

/-- Writing destinations changes the register file and nothing else. -/
theorem writeDests_eq : writeDests ds s = { s with f := (writeDests ds s).f } := by
  induction ds generalizing s with
  | nil => rfl
  | cons d ds ih => rw [writeDests_cons, ih]; rfl

@[simp] theorem writeDests_build : (writeDests ds s).build = s.build := by rw [writeDests_eq]
@[simp] theorem writeDests_consts : (writeDests ds s).consts = s.consts := by rw [writeDests_eq]
@[simp] theorem writeDests_chain : (writeDests ds s).chain = s.chain := by rw [writeDests_eq]
@[simp] theorem writeDests_ctrl : (writeDests ds s).ctrl = s.ctrl := by rw [writeDests_eq]
@[simp] theorem writeDests_status : (writeDests ds s).status = s.status := by rw [writeDests_eq]
@[simp] theorem writeDests_engine : (writeDests ds s).engine = s.engine := by rw [writeDests_eq]
@[simp] theorem writeDests_resp : (writeDests ds s).resp = s.resp := by rw [writeDests_eq]
@[simp] theorem writeDests_script : (writeDests ds s).script = s.script := by rw [writeDests_eq]
@[simp] theorem writeDests_fresh : (writeDests ds s).fresh = s.fresh := by rw [writeDests_eq]

/-- A register that is no destination keeps its value. -/
theorem writeDests_reg_of_not_mem {q : Reg} (h : ∀ d ∈ ds, d.1 ≠ q) : (writeDests ds s).reg q = s.reg q := by
  induction ds generalizing s with
  | nil => rfl
  | cons d ds ih =>
    rw [writeDests_cons, ih _ (fun e he => h e (List.mem_cons_of_mem _ he)),
      setReg_reg_ne _ _ _ (h d (List.mem_cons_self ..)).symm]

/-- A register holds its old value or one that was written. -/
theorem writeDests_reg_cases (q : Reg) :
    (writeDests ds s).reg q = s.reg q ∨ ∃ d ∈ ds, d.1 = q ∧ (writeDests ds s).reg q = d.2 := by
  induction ds generalizing s with
  | nil => exact .inl rfl
  | cons d ds ih =>
    rw [writeDests_cons]
    rcases ih (s.setReg d.1 d.2) with h | ⟨e, he, hq, hv⟩
    · by_cases hd : q = d.1
      · subst hd
        exact .inr ⟨d, List.mem_cons_self .., rfl, by rw [h, setReg_reg_self]⟩
      · exact .inl (by rw [h, setReg_reg_ne _ _ _ hd])
    · exact .inr ⟨e, List.mem_cons_of_mem _ he, hq, hv⟩

end WriteDests

section Complete
variable (r : Result) (s : State)

/-- Everything a completion does (60_exceptions.md R261, 20_memory.md R85). -/
theorem complete_eq : complete r s =
    { s with
      f := (writeDests r.dests s).f
      engine := none
      status := { s.status with done := true, c := r.carry.getD s.status.c } } := by
  unfold complete
  rw [writeDests_eq]

@[simp] theorem complete_build : (complete r s).build = s.build := by rw [complete_eq]
@[simp] theorem complete_consts : (complete r s).consts = s.consts := by rw [complete_eq]
@[simp] theorem complete_chain : (complete r s).chain = s.chain := by rw [complete_eq]
@[simp] theorem complete_ctrl : (complete r s).ctrl = s.ctrl := by rw [complete_eq]
@[simp] theorem complete_engine : (complete r s).engine = none := by rw [complete_eq]
@[simp] theorem complete_busy : (complete r s).busy = false := by simp [State.busy]
@[simp] theorem complete_done : (complete r s).status.done = true := by rw [complete_eq]
@[simp] theorem complete_c : (complete r s).status.c = r.carry.getD s.status.c := by rw [complete_eq]
@[simp] theorem complete_err : (complete r s).status.err = s.status.err := by rw [complete_eq]
@[simp] theorem complete_errcode : (complete r s).status.errcode = s.status.errcode := by rw [complete_eq]
@[simp] theorem complete_resp : (complete r s).resp = s.resp := by rw [complete_eq]
@[simp] theorem complete_script : (complete r s).script = s.script := by rw [complete_eq]
@[simp] theorem complete_fresh : (complete r s).fresh = s.fresh := by rw [complete_eq]
@[simp] theorem complete_reg (q : Reg) : (complete r s).reg q = (writeDests r.dests s).reg q := by
  rw [complete_eq]; rfl

end Complete

end Sys2Proof.Machine
end

