-- ==== Sys2Proof/Laws/Ops.lean ====
section
/-! SUPPORT. What each shared operation on commands can do, said once: the checks, issuing, and the engine's turn. -/

namespace Sys2Proof.Machine

/-- The checks pass exactly when CORE is ready, every pair field is even and, where it matters, the chain is valid. -/
theorem admission_eq_none {s : State} {pairs : List Reg} {u : Bool} :
    admission s pairs u = none ↔
      s.Ready ∧ pairs.any oddReg = false ∧ (u = true → s.chain.valid = true) := by
  unfold admission State.Ready
  cases s.busy <;> cases s.ctrl.lock <;> cases pairs.any oddReg <;> cases u <;> cases s.chain.valid <;> simp

/-- Issuing answers a next state on every path: a rejection by the first failing check, or the acceptance. -/
theorem issue_cases (s : State) (pairs : List Reg) (u : Bool) (r : Result) :
    (∃ c, admission s pairs u = some c ∧ issue s pairs u r = .next (reject c s)) ∨
      (admission s pairs u = none ∧ issue s pairs u r = .next (accept r s)) := by
  unfold issue
  cases h : admission s pairs u with
  | none => exact .inr ⟨rfl, rfl⟩
  | some c => exact .inl ⟨c, rfl, rfl⟩

/-- A command that passes its checks is accepted. -/
theorem issue_accepts {s : State} {pairs : List Reg} {u : Bool} (r : Result) (h : s.Ready)
    (hp : pairs.any oddReg = false) (hc : u = true → s.chain.valid = true) :
    issue s pairs u r = .next (accept r s) := by
  unfold issue
  rw [admission_eq_none.2 ⟨h, hp, hc⟩]

/-- A ready CORE rejects a command that names a pair by an odd register (60_exceptions.md R264). -/
theorem issue_misaligned {s : State} {pairs : List Reg} (u : Bool) (r : Result) (h : s.Ready)
    (hp : pairs.any oddReg = true) : issue s pairs u r = .next (reject .misalignedPair s) := by
  unfold issue admission
  simp [h.1, h.2, hp]

/-- A ready CORE rejects an inversion command when the chain table is not valid (60_exceptions.md R265). -/
theorem issue_badChain {s : State} {pairs : List Reg} (r : Result) (h : s.Ready)
    (hp : pairs.any oddReg = false) (hc : s.chain.valid = false) :
    issue s pairs true r = .next (reject .badChain s) := by
  unfold issue admission
  simp [h.1, h.2, hp, hc]

/-- An idle engine changes nothing (60_exceptions.md R277). -/
@[simp] theorem engineTurn_idle {s : State} (h : s.engine = none) : engineTurn s = s := by
  unfold engineTurn
  rw [h]

/-- A command in flight completes (60_exceptions.md R268). -/
@[simp] theorem engineTurn_busy {s : State} {r : Result} (h : s.engine = some r) : engineTurn s = complete r s := by
  unfold engineTurn
  rw [h]

/-- The engine's turn after an acceptance: the destinations written over the registers at acceptance, C written if the
command writes it, DONE = 1, and the rest of the state as it was when the command was presented. -/
theorem engineTurn_accept (r : Result) {s : State} (h : s.busy = false) :
    engineTurn (accept r s) = s.finished (writeDests r.dests s).f (r.carry.getD s.status.c) := by
  have he : s.engine = none := by simpa [State.busy] using h
  have hf : (writeDests r.dests (accept r s)).f = (writeDests r.dests s).f := by
    have : ∀ (ds : List (Reg × Nat)) (x y : State), x.f = y.f → (writeDests ds x).f = (writeDests ds y).f := by
      intro ds
      induction ds with
      | nil => exact fun _ _ e => e
      | cons d ds ih => exact fun x y e => ih _ _ (by simp [State.setReg, e])
    exact this _ _ _ rfl
  rw [engineTurn_busy (r := r) rfl, complete_eq, hf]
  rfl

/-- Issuing a command that passes its checks runs it: what the provers cite for every command. -/
theorem runsTo_of_issue {i : Instr} {s : State} {pairs : List Reg} {u : Bool} {r : Result}
    (hi : exec i s = issue s pairs u r) (h : s.Ready) (hp : pairs.any oddReg = false)
    (hc : u = true → s.chain.valid = true) :
    RunsTo i s (s.finished (writeDests r.dests s).f (r.carry.getD s.status.c)) :=
  ⟨accept r s, by rw [hi, issue_accepts r h hp hc], rfl, rfl, engineTurn_accept r h.1⟩

/-- After a write of one destination. -/
@[simp] theorem writeDests_destOne (rd : Reg) (v : Nat) (s : State) :
    (writeDests (destOne rd v) s).f = s.f.set rd.val v := rfl

/-- After a write of a destination pair. -/
@[simp] theorem writeDests_destPair (rd : Reg) (c : Nat × Nat) (s : State) :
    (writeDests (destPair rd c) s).f = (s.f.set rd.val c.1).set (pairMate rd).val c.2 := rfl

end Sys2Proof.Machine
end

