-- ==== Sys2Proof/Laws/Step.lean ====
section
/-! SUPPORT. Everything a step can do, said once: the cases of an access, of `exec`, and of `step`. -/

namespace Sys2Proof.Machine

/-- Every command issues one result: its checks are those of its pair fields and, for the inversion commands, of the chain
table, and the shape of its result is fixed by the command. -/
theorem exec_issues (i : Instr) (s : State) :
    ∃ r, exec i s = issue s i.pairFields (profile i).chain r ∧ r.carry.isSome = (profile i).writesC ∧
      (s.Inv → r.fits s.build) := by
  have one : ∀ (rd : Reg) (v : Nat), v < s.build.radix → (fieldResult rd v).fits s.build := by
    intro rd v h d hd
    simp only [fieldResult, destOne, List.mem_singleton] at hd
    subst hd
    exact h
  have two : ∀ (rd : Reg) (c : Nat × Nat), c.1 < s.build.radix ∧ c.2 < s.build.radix →
      (pairResult rd c).fits s.build := by
    intro rd c h d hd
    simp only [pairResult, destPair, List.mem_cons, List.not_mem_nil, or_false] at hd
    rcases hd with rfl | rfl
    · exact h.1
    · exact h.2
  have mp : ∀ (double : Bool) (rd : Reg) (v : Nat) (c : Bool), v < 2 ^ mpBits s.build double →
      (⟨destMp s.build double rd v, some c⟩ : Result).fits s.build := by
    intro double rd v c h
    cases double with
    | false => exact one rd v h
    | true =>
      refine two rd (v % s.build.radix, v / s.build.radix) ⟨Nat.mod_lt _ (radix_pos _), ?_⟩
      have e : 2 ^ mpBits s.build true = s.build.radix * s.build.radix := by
        simp only [mpBits, cond_true, Build.radix, two_mul, pow_add]
      rw [e] at h
      exact Nat.div_lt_of_lt_mul h
  cases i with
  | mpadd double rd rs1 rs2 =>
    exact ⟨_, rfl, rfl, fun _ => mp _ _ _ _ (Nat.mod_lt _ (Nat.two_pow_pos _))⟩
  | mpsub double rd rs1 rs2 =>
    exact ⟨_, rfl, rfl, fun _ => mp _ _ _ _ (toNat_emod_lt _ (Nat.two_pow_pos _))⟩
  | mpshl1 rd rs1 => exact ⟨_, rfl, rfl, fun _ => one _ _ (Nat.mod_lt _ (radix_pos _))⟩
  | mpshr1 rd rs1 =>
    exact ⟨_, rfl, rfl, fun h => one _ _ ((Nat.div_le_self _ _).trans_lt (h.f rs1))⟩
  | fmul rd rs1 rs2 => exact ⟨_, rfl, rfl, fun _ => one _ _ (montMul_lt _ _ _ _)⟩
  | fsqr rd rs1 => exact ⟨_, rfl, rfl, fun _ => one _ _ (montMul_lt _ _ _ _)⟩
  | ftom rd rs1 => exact ⟨_, rfl, rfl, fun _ => one _ _ (montMul_lt _ _ _ _)⟩
  | ffromm rd rs1 => exact ⟨_, rfl, rfl, fun _ => one _ _ (corr_lt _ (montRed_lt _ _ _))⟩
  | fcorr rd rs1 => exact ⟨_, rfl, rfl, fun h => one _ _ (corr_lt _ (h.f rs1))⟩
  | fadd rd rs1 rs2 => exact ⟨_, rfl, rfl, fun _ => one _ _ (modAdd_lt _ _ _ _)⟩
  | fsub rd rs1 rs2 => exact ⟨_, rfl, rfl, fun _ => one _ _ (modSub_lt _ _ _ _)⟩
  | fneg rd rs1 => exact ⟨_, rfl, rfl, fun _ => one _ _ (modNeg_lt _ _ _)⟩
  | fhalf rd rs1 => exact ⟨_, rfl, rfl, fun _ => one _ _ (half_lt _ _ _)⟩
  | finvc rd rs1 => exact ⟨_, rfl, rfl, fun h => one _ _ (chain_lt _ _ _ (h.f rs1))⟩
  | finv rd rs1 => exact ⟨_, rfl, rfl, fun _ => one _ _ (inv_lt _ _ _ _)⟩
  | f2add rd rs1 rs2 => exact ⟨_, rfl, rfl, fun _ => two _ _ ⟨modAdd_lt _ _ _ _, modAdd_lt _ _ _ _⟩⟩
  | f2sub rd rs1 rs2 => exact ⟨_, rfl, rfl, fun _ => two _ _ ⟨modSub_lt _ _ _ _, modSub_lt _ _ _ _⟩⟩
  | f2neg rd rs1 => exact ⟨_, rfl, rfl, fun _ => two _ _ ⟨modNeg_lt _ _ _, modNeg_lt _ _ _⟩⟩
  | f2half rd rs1 => exact ⟨_, rfl, rfl, fun _ => two _ _ ⟨half_lt _ _ _, half_lt _ _ _⟩⟩
  | f2corr rd rs1 => exact ⟨_, rfl, rfl, fun h => two _ _ ⟨corr_lt _ (h.f _), corr_lt _ (h.f _)⟩⟩
  | f2mul rd rs1 rs2 => exact ⟨_, rfl, rfl, fun _ => two _ _ (fp2Mul_lt _ _ _ _)⟩
  | f2sqr rd rs1 => exact ⟨_, rfl, rfl, fun _ => two _ _ (fp2Sqr_lt _ _ _)⟩
  | f2inv rd rs1 => exact ⟨_, rfl, rfl, fun _ => two _ _ (fp2Inv_lt _ _ _ _)⟩
  | f2tom rd rs1 => exact ⟨_, rfl, rfl, fun _ => two _ _ ⟨montMul_lt _ _ _ _, montMul_lt _ _ _ _⟩⟩
  | f2fromm rd rs1 =>
    exact ⟨_, rfl, rfl, fun _ => two _ _ ⟨corr_lt _ (montRed_lt _ _ _), corr_lt _ (montRed_lt _ _ _)⟩⟩

/-- A command answers a next state on every path: a rejection, or an acceptance when CORE is ready. -/
theorem exec_cases {i : Instr} {s t : State} (h : exec i s = .next t) :
    (∃ c, t = reject c s) ∨
      (∃ r, t = accept r s ∧ s.Ready ∧ r.carry.isSome = (profile i).writesC ∧ (s.Inv → r.fits s.build)) := by
  obtain ⟨r, hr, hc, hf⟩ := exec_issues i s
  rw [hr] at h
  rcases issue_cases s i.pairFields (profile i).chain r with ⟨c, -, e⟩ | ⟨ha, e⟩
  · rw [e] at h
    exact .inl ⟨c, (Host.Outcome.next.inj h).symm⟩
  · rw [e] at h
    exact .inr ⟨r, (Host.Outcome.next.inj h).symm, (admission_eq_none.1 ha).1, hc, hf⟩

/-- What an access can do to `s` (20_memory.md R76 to R83, 60_exceptions.md R261). -/
inductive AccessCase (a : Access) (s t : State) : Prop where
  | slverr (h : a.failing s = true) (e : t = s.respond (slverr a))
  | read (h : a.failing s = false) (w : a.write = false)
      (e : t = s.respond (okayRead (readData (targetOf a.addr) s)))
  | write (h : a.failing s = false) (w : a.write = true) (n : targetOf a.addr ≠ .cmd)
      (e : t = (writeTarget (targetOf a.addr) a.wdata s).respond okayWrite)
  | rejected (h : a.failing s = false) (w : a.write = true) (n : targetOf a.addr = .cmd) (c : RejectCode)
      (f : frontEnd a.wdata s = .reject c) (e : t = reject c (s.respond okayWrite))
  | command (h : a.failing s = false) (w : a.write = true) (n : targetOf a.addr = .cmd) (i : Instr)
      (f : frontEnd a.wdata s = .run i) (e : exec i (s.respond okayWrite) = .next t)

/-- The front end looks at BUSY, LOCK and the word alone. -/
theorem frontEnd_congr {s s' : State} (w : Word) (hb : s.busy = s'.busy) (hl : s.ctrl.lock = s'.ctrl.lock) :
    frontEnd w s = frontEnd w s' := by
  unfold frontEnd
  rw [hb, hl]

/-- Everything an access can do. -/
theorem access_cases {a : Access} {s t : State} (h : access a s = .next t) : AccessCase a s t := by
  unfold access busAccess at h
  cases hf : a.failing s with
  | true =>
    rw [hf] at h
    exact .slverr hf (Host.Outcome.next.inj h).symm
  | false =>
    rw [hf] at h
    cases hw : a.write with
    | false =>
      rw [hw] at h
      exact .read hf hw (Host.Outcome.next.inj h).symm
    | true =>
      rw [hw] at h
      by_cases hn : targetOf a.addr = .cmd
      · rw [if_neg (by decide), if_pos rfl, if_pos hn] at h
        change present a.wdata (s.respond okayWrite) = .next t at h
        unfold present at h
        rw [show frontEnd a.wdata (s.respond okayWrite) = frontEnd a.wdata s from frontEnd_congr _ rfl rfl] at h
        cases hfe : frontEnd a.wdata s with
        | reject c =>
          rw [hfe] at h
          exact .rejected hf hw hn c hfe (Host.Outcome.next.inj h).symm
        | run i =>
          rw [hfe] at h
          exact .command hf hw hn i hfe h
      · rw [if_neg (by decide), if_pos rfl, if_neg hn] at h
        exact .write hf hw hn (Host.Outcome.next.inj h).symm

/-- A run of one step more is a run from the state the first step leads to. -/
theorem run_succ {M : Host.Core} {n : Nat} {s s' : M.State} (h : M.step s = .next s') : M.run (n + 1) s = M.run n s' := by
  rw [Host.Core.run, h]

/-- What a step can do. -/
inductive StepCase (s t : State) : Prop where
  | engine (rest : List Event) (h : (s.script = [] ∧ rest = []) ∨ s.script = .engine :: rest)
      (e : t = engineTurn (takeEvent rest s))
  | reset (a : Option Access) (rest : List Event) (h : s.script = .reset a :: rest)
      (e : t = resetEdge a (takeEvent rest s))
  | access (a : Access) (rest : List Event) (h : s.script = .access a :: rest)
      (e : AccessCase a (takeEvent rest s) t)

/-- Everything a step can do: the inversion lemma of `step`. -/
theorem step_cases {s t : State} (h : step s = .next t) : StepCase s t := by
  unfold step at h
  split at h
  · rename_i hs
    exact .engine [] (.inl ⟨hs, rfl⟩) (Host.Outcome.next.inj h).symm
  · rename_i rest hs
    exact .engine rest (.inr hs) (Host.Outcome.next.inj h).symm
  · rename_i a rest hs
    exact .reset a rest hs (Host.Outcome.next.inj h).symm
  · rename_i a rest hs
    exact .access a rest hs (access_cases h)

end Sys2Proof.Machine
end

