-- ==== Sys2Proof/Laws/Bus.lean ====
section
/-! SUPPORT. The offsets of the register map, the CMD write's step, and what a write to a register changes. -/

namespace Sys2Proof.Machine

/-- A full 32-bit access at a word-aligned offset is well formed (20_memory.md R76). -/
theorem wellformed_of_aligned {a : Access} (hs : a.strb = 0xF) (ha : a.addr.toNat % 4 = 0) : a.malformed = false := by
  simp [Access.malformed, hs, ha]

/-- The slot of an F window that an offset names (R72, R73). -/
theorem targetOf_f (r : Reg) {k : Nat} (hk : k < 32) :
    targetOf (BitVec.ofNat 13 (0x1000 + 0x80 * r.val + 4 * k)) = .f r k := by
  have hr := r.isLt
  have hn : (BitVec.ofNat 13 (0x1000 + 0x80 * r.val + 4 * k)).toNat = 0x1000 + 0x80 * r.val + 4 * k := by
    rw [BitVec.toNat_ofNat]
    omega
  unfold targetOf
  simp only [hn]
  rw [if_neg (by omega), if_neg (by omega), if_neg (by omega), if_neg (by omega), if_neg (by omega), if_neg (by omega)]
  have h1 : (0x1000 + 0x80 * r.val + 4 * k - 0x1000) / 0x80 = r.val := by omega
  have h2 : (0x1000 + 0x80 * r.val + 4 * k) % 0x80 / 4 = k := by omega
  rw [h1, h2]
  congr 1
  exact Fin.ext (Nat.mod_eq_of_lt hr)

/-- The slot of the P window that an offset names (R72, R73). -/
theorem targetOf_p {k : Nat} (hk : k < 32) : targetOf (BitVec.ofNat 13 (0x0080 + 4 * k)) = .p k := by
  have hn : (BitVec.ofNat 13 (0x0080 + 4 * k)).toNat = 0x0080 + 4 * k := by
    rw [BitVec.toNat_ofNat]
    omega
  unfold targetOf
  simp only [hn]
  rw [if_neg (by omega), if_pos (by omega)]
  congr 1
  omega

/-- The slot of the R2 window that an offset names (R72, R73). -/
theorem targetOf_r2 {k : Nat} (hk : k < 32) : targetOf (BitVec.ofNat 13 (0x0100 + 4 * k)) = .r2 k := by
  have hn : (BitVec.ofNat 13 (0x0100 + 4 * k)).toNat = 0x0100 + 4 * k := by
    rw [BitVec.toNat_ofNat]
    omega
  unfold targetOf
  simp only [hn]
  rw [if_neg (by omega), if_neg (by omega), if_pos (by omega)]
  congr 1
  omega

/-- The CHAIN_STEP register that an offset names (R72). -/
theorem targetOf_chainStep (i : Fin 256) : targetOf (BitVec.ofNat 13 (0x0400 + 4 * i.val)) = .chainStep i := by
  have hi := i.isLt
  have hn : (BitVec.ofNat 13 (0x0400 + 4 * i.val)).toNat = 0x0400 + 4 * i.val := by
    rw [BitVec.toNat_ofNat]
    omega
  unfold targetOf
  simp only [hn]
  rw [if_neg (by omega), if_neg (by omega), if_neg (by omega), if_neg (by omega), if_pos (by omega)]
  congr 1
  exact Fin.ext (by simp only [Fin.ofNat]; omega)

/-- An offset names CMD exactly when it is 0x0018, and STATUS exactly when it is 0x0014 (R72). -/
theorem targetOf_eq_cmd {a : BitVec 13} : targetOf a = .cmd ↔ a.toNat = 0x0018 := by
  constructor
  · intro h
    unfold targetOf at h
    simp only at h
    split at h
    · split at h <;> first | assumption | cases h
    · repeat' split at h
      all_goals cases h
  · intro h
    unfold targetOf
    simp only [h]
    rfl

theorem targetOf_eq_status {a : BitVec 13} : targetOf a = .status ↔ a.toNat = 0x0014 := by
  constructor
  · intro h
    unfold targetOf at h
    simp only at h
    split at h
    · split at h <;> first | assumption | cases h
    · repeat' split at h
      all_goals cases h
  · intro h
    unfold targetOf
    simp only [h]
    rfl

@[simp] theorem cmdWrite_target (w : Word) : targetOf (cmdWrite w).addr = .cmd := targetOf_eq_cmd.2 rfl

@[simp] theorem cmdWrite_failing (w : Word) (s : State) : (cmdWrite w).failing s = false := by
  unfold Access.failing
  rw [cmdWrite_target, wellformed_of_aligned rfl (by simp [cmdWrite])]
  rfl

/-- An access that fails does so whatever event and response the step has taken. -/
@[simp] theorem failing_takeEvent (a : Access) (l : List Event) (s : State) :
    a.failing (takeEvent l s) = a.failing s := rfl

/-- The step of a CMD write presents its word, answered OKAY (20_memory.md R78). -/
theorem step_cmdWrite {s : State} {w : Word} {rest : List Event} (h : s.script = .access (cmdWrite w) :: rest) :
    step s = present w ((takeEvent rest s).respond okayWrite) := by
  unfold step
  rw [h]
  change access (cmdWrite w) (takeEvent rest s) = _
  unfold access busAccess
  rw [cmdWrite_failing, cmdWrite_target]
  rfl

/-- The step of an access that does not fail and writes a register other than CMD. -/
theorem step_write {s : State} {a : Access} {rest : List Event} (h : s.script = .access a :: rest)
    (hf : a.failing s = false) (hw : a.write = true) (hn : targetOf a.addr ≠ .cmd) :
    step s = .next ((writeTarget (targetOf a.addr) a.wdata (takeEvent rest s)).respond okayWrite) := by
  unfold step
  rw [h]
  change access a (takeEvent rest s) = _
  unfold access busAccess
  rw [failing_takeEvent, hf, hw, if_neg (by decide), if_pos rfl, if_neg hn]

/-- The step of a read that does not fail. -/
theorem step_read {s : State} {a : Access} {rest : List Event} (h : s.script = .access a :: rest)
    (hf : a.failing s = false) (hw : a.write = false) :
    step s = .next ((takeEvent rest s).respond (okayRead (readData (targetOf a.addr) (takeEvent rest s)))) := by
  unfold step
  rw [h]
  change access a (takeEvent rest s) = _
  unfold access busAccess
  rw [failing_takeEvent, hf, hw]
  rfl

/-- The step of a full write at an offset whose target is a register other than CMD and accepts it. -/
theorem step_writeAt {s : State} {n : Nat} {v : Word} {rest : List Event} {T : Target}
    (h : s.script = .access (writeAt n v) :: rest) (ha : (BitVec.ofNat 13 n).toNat % 4 = 0)
    (hT : targetOf (BitVec.ofNat 13 n) = T) (hr : refusedAt true T s = false) (hn : T ≠ .cmd) :
    step s = .next ((writeTarget T v (takeEvent rest s)).respond okayWrite) := by
  subst hT
  refine step_write h ?_ rfl hn
  unfold Access.failing
  rw [wellformed_of_aligned rfl ha]
  exact hr

/-- The step of a full read at an offset whose target accepts it. -/
theorem step_readAt {s : State} {n : Nat} {rest : List Event} {T : Target}
    (h : s.script = .access (readAt n) :: rest) (ha : (BitVec.ofNat 13 n).toNat % 4 = 0)
    (hT : targetOf (BitVec.ofNat 13 n) = T) (hr : refusedAt false T s = false) :
    step s = .next ((takeEvent rest s).respond (okayRead (readData T (takeEvent rest s)))) := by
  subst hT
  refine step_read h ?_ rfl
  unfold Access.failing
  rw [wellformed_of_aligned rfl ha]
  exact hr

/-- The step of an access that fails (R80). -/
theorem step_slverr {s : State} {a : Access} {rest : List Event} (h : s.script = .access a :: rest)
    (hf : a.failing s = true) : step s = .next ((takeEvent rest s).respond (slverr a)) := by
  unfold step
  rw [h]
  change access a (takeEvent rest s) = _
  unfold access busAccess
  rw [failing_takeEvent, hf]
  rfl

/-- The step of the engine's turn, or of a script that says nothing more. -/
theorem step_engine {s : State} (h : EngineMoves s) : step s = .next (engineTurn (takeEvent s.script.tail s)) := by
  unfold step
  rcases h with h | ⟨rest, h⟩ <;> rw [h] <;> rfl

section WriteTarget
variable (t : Target) (v : Word) (s : State)

@[simp] theorem writeTarget_build : (writeTarget t v s).build = s.build := by unfold writeTarget; split <;> rfl
@[simp] theorem writeTarget_engine : (writeTarget t v s).engine = s.engine := by unfold writeTarget; split <;> rfl
@[simp] theorem writeTarget_busy : (writeTarget t v s).busy = s.busy := by simp [State.busy]
@[simp] theorem writeTarget_script : (writeTarget t v s).script = s.script := by unfold writeTarget; split <;> rfl
@[simp] theorem writeTarget_fresh : (writeTarget t v s).fresh = s.fresh := by unfold writeTarget; split <;> rfl
@[simp] theorem writeTarget_c : (writeTarget t v s).status.c = s.status.c := by unfold writeTarget; split <;> rfl

/-- LOCK is never cleared by a write (10_state.md R40). -/
theorem writeTarget_lock (h : s.ctrl.lock = true) : (writeTarget t v s).ctrl.lock = true := by
  unfold writeTarget
  split <;> first | exact h | simp [ctrlWrite, h]

/-- Only a write to STATUS changes DONE, ERR or ERRCODE. -/
theorem writeTarget_status (h : t ≠ .status) : (writeTarget t v s).status = s.status := by
  unfold writeTarget
  split <;> first | rfl | exact absurd rfl h

end WriteTarget

section Limbs

/-- Every value fits in its limbs: w*W <= 32*L. -/
theorem elemBits_le_limbs (b : Build) : b.elemBits ≤ 32 * b.limbs := by
  unfold Build.limbs
  omega

/-- A write to a slot below L replaces the limb, cut to the element's width (20_memory.md R73). -/
theorem slotWrite_below {b : Build} {k : Nat} (h : k < b.limbs) (v : Word) (x : Nat) :
    slotWrite b k v x = setLimb k v x % b.radix := if_pos h

/-- A write to a slot at or above L is ignored (20_memory.md R73). -/
theorem slotWrite_above {b : Build} {k : Nat} (h : b.limbs ≤ k) (v : Word) (x : Nat) : slotWrite b k v x = x :=
  if_neg (by omega)

theorem slotWrite_lt (b : Build) (k : Nat) (v : Word) {x : Nat} (h : x < b.radix) : slotWrite b k v x < b.radix := by
  unfold slotWrite
  split
  · exact Nat.mod_lt _ (radix_pos b)
  · exact h

theorem pprimeWrite_lt (b : Build) (k : Nat) (v : Word) (x : Nat) : pprimeWrite b k v x < 2 ^ b.w :=
  Nat.mod_lt _ (Nat.two_pow_pos _)

/-- Bit m of limb k is bit 32*k + m of the value. -/
theorem testBit_limb (k x m : Nat) : (limb k x).testBit m = (decide (m < 32) && x.testBit (32 * k + m)) := by
  unfold limb
  rw [Nat.testBit_mod_two_pow, Nat.testBit_div_two_pow, Nat.add_comm]

/-- The bits of a value with one limb replaced: that limb's bits are the word's, the others are unchanged. -/
theorem testBit_setLimb (k : Nat) (v : Word) (x m : Nat) :
    (setLimb k v x).testBit m =
      if m / 32 = k then v.toNat.testBit (m % 32) else x.testBit m := by
  have hv : v.toNat < 2 ^ 32 := v.isLt
  have hlow : x % 2 ^ (32 * k) < 2 ^ (32 * k) := Nat.mod_lt _ (Nat.two_pow_pos _)
  have e : setLimb k v x =
      2 ^ (32 * k) * (2 ^ 32 * (x / 2 ^ (32 * (k + 1))) + v.toNat) + x % 2 ^ (32 * k) := by
    unfold setLimb
    rw [show 32 * (k + 1) = 32 * k + 32 by ring, pow_add]
    ring
  rw [e, Nat.testBit_two_pow_mul_add _ hlow, Nat.testBit_two_pow_mul_add _ hv, Nat.testBit_mod_two_pow,
    Nat.testBit_div_two_pow]
  rcases lt_trichotomy (m / 32) k with h | h | h
  · have h1 : m < 32 * k := by omega
    simp [h1, h.ne]
  · have h1 : ¬ m < 32 * k := by omega
    have h2 : m - 32 * k < 32 := by omega
    have h3 : m - 32 * k = m % 32 := by omega
    rw [if_neg h1, if_pos h2, if_pos h, h3]
  · have h1 : ¬ m < 32 * k := by omega
    have h2 : ¬ m - 32 * k < 32 := by omega
    have h3 : m - 32 * k - 32 + 32 * (k + 1) = m := by omega
    rw [if_neg h1, if_neg h2, if_neg h.ne', h3]

/-- The limb written reads back, cut to the element's width (20_memory.md R73). -/
theorem limb_slotWrite_self {b : Build} {k : Nat} (h : k < b.limbs) (v : Word) (x : Nat) :
    limb k (slotWrite b k v x) = v.toNat % 2 ^ (b.elemBits - 32 * k) := by
  rw [slotWrite_below h]
  apply Nat.eq_of_testBit_eq
  intro m
  rw [testBit_limb, Build.radix, Nat.testBit_mod_two_pow, testBit_setLimb, Nat.testBit_mod_two_pow]
  by_cases hm : m < 32
  · rw [if_pos (by omega), show (32 * k + m) % 32 = m by omega]
    simp only [hm, decide_true, Bool.true_and]
    congr 1
    exact decide_eq_decide.2 (by omega)
  · have : v.toNat.testBit m = false :=
      Nat.testBit_lt_two_pow (v.isLt.trans_le (Nat.pow_le_pow_right (by decide) (by omega)))
    simp [hm, this]

/-- Writing one limb leaves every other limb of an element value as it was. -/
theorem limb_slotWrite_ne {b : Build} {j k : Nat} (h : j ≠ k) (v : Word) {x : Nat} (hx : x < b.radix) :
    limb j (slotWrite b k v x) = limb j x := by
  unfold slotWrite
  split
  · apply Nat.eq_of_testBit_eq
    intro m
    rw [testBit_limb, testBit_limb, Build.radix, Nat.testBit_mod_two_pow, testBit_setLimb]
    by_cases hm : m < 32
    · rw [if_neg (by omega)]
      by_cases he : 32 * j + m < b.elemBits
      · simp [he]
      · have : x.testBit (32 * j + m) = false :=
          Nat.testBit_lt_two_pow (hx.trans_le (Nat.pow_le_pow_right (by decide) (by omega)))
        simp [this]
    · simp [hm]
  · rfl

/-- Two element values with the same limbs are equal. -/
theorem eq_of_limbs {b : Build} {x y : Nat} (hx : x < b.radix) (hy : y < b.radix)
    (h : ∀ k, k < b.limbs → limb k x = limb k y) : x = y := by
  apply Nat.eq_of_testBit_eq
  intro m
  by_cases hm : m < b.elemBits
  · have hk : m / 32 < b.limbs := by
      have := elemBits_le_limbs b
      omega
    have := congrArg (fun z => z.testBit (m % 32)) (h _ hk)
    simp only [testBit_limb] at this
    have e : 32 * (m / 32) + m % 32 = m := by omega
    simpa [e, Nat.mod_lt m (show 0 < 32 by decide)] using this
  · have hx' : x < 2 ^ m := hx.trans_le (Nat.pow_le_pow_right (by decide) (by omega))
    have hy' : y < 2 ^ m := hy.trans_le (Nat.pow_le_pow_right (by decide) (by omega))
    rw [Nat.testBit_lt_two_pow hx', Nat.testBit_lt_two_pow hy']

end Limbs

end Sys2Proof.Machine
end

