-- ==== Sys2Proof/Laws/Decode.lean ====
section
/-! SUPPORT. The fields of a command word built from its fields (30_encoding.md R111). -/

namespace Sys2Proof

section Fields
variable {op : Nat} (h : op < 64) (rd rs1 rs2 : Reg) (d : Bool)
include h

theorem fieldsWord_toNat : (fieldsWord op rd rs1 rs2 d).toNat =
    op * 67108864 + rd.val * 2097152 + rs1.val * 65536 + rs2.val * 2048 + (bif d then 1 else 0) * 1024 := by
  have := rd.isLt
  have := rs1.isLt
  have := rs2.isLt
  simp only [fieldsWord, BitVec.toNat_ofNat]
  cases d <;> simp only [cond_true, cond_false] <;> norm_num <;> omega

theorem fieldsWord_op : bits 31 26 (fieldsWord op rd rs1 rs2 d).toNat = op := by
  rw [fieldsWord_toNat h]
  have := rd.isLt
  have := rs1.isLt
  have := rs2.isLt
  cases d <;> simp only [bits, cond_true, cond_false] <;> norm_num <;> omega

theorem fieldsWord_rd : regField 21 (fieldsWord op rd rs1 rs2 d).toNat = rd := by
  rw [fieldsWord_toNat h]
  have := rd.isLt
  have := rs1.isLt
  have := rs2.isLt
  apply Fin.ext
  cases d <;> simp only [regField, bits, Fin.ofNat, cond_true, cond_false] <;> norm_num <;> omega

theorem fieldsWord_rs1 : regField 16 (fieldsWord op rd rs1 rs2 d).toNat = rs1 := by
  rw [fieldsWord_toNat h]
  have := rd.isLt
  have := rs1.isLt
  have := rs2.isLt
  apply Fin.ext
  cases d <;> simp only [regField, bits, Fin.ofNat, cond_true, cond_false] <;> norm_num <;> omega

theorem fieldsWord_rs2 : regField 11 (fieldsWord op rd rs1 rs2 d).toNat = rs2 := by
  rw [fieldsWord_toNat h]
  have := rd.isLt
  have := rs1.isLt
  have := rs2.isLt
  apply Fin.ext
  cases d <;> simp only [regField, bits, Fin.ofNat, cond_true, cond_false] <;> norm_num <;> omega

theorem fieldsWord_d : (bits 10 10 (fieldsWord op rd rs1 rs2 d).toNat == 1) = d := by
  rw [fieldsWord_toNat h]
  have := rd.isLt
  have := rs1.isLt
  have := rs2.isLt
  cases d <;> simp only [bits, cond_true, cond_false, beq_iff_eq, beq_eq_false_iff_ne] <;> norm_num <;> omega

theorem fieldsWord_rsv : bits 9 0 (fieldsWord op rd rs1 rs2 d).toNat = 0 := by
  rw [fieldsWord_toNat h]
  cases d <;> simp only [bits, cond_true, cond_false] <;> norm_num <;> omega

theorem fieldsWord_d_rsv : bits 10 0 (fieldsWord op rd rs1 rs2 false).toNat = 0 := by
  rw [fieldsWord_toNat h]
  simp only [bits, cond_false]
  norm_num
  omega

theorem fieldsWord_rs2_d_rsv : bits 15 0 (fieldsWord op rd rs1 0 false).toNat = 0 := by
  rw [fieldsWord_toNat h]
  simp only [bits, cond_false]
  norm_num
  omega

/-- The lowest bit of RD is 0 exactly when RD is even; the same of RS1 and RS2. -/
theorem fieldsWord_rd_even : (bits 21 21 (fieldsWord op rd rs1 rs2 d).toNat == 0) = Reg.isEven rd := by
  rw [fieldsWord_toNat h]
  have := rs1.isLt
  have := rs2.isLt
  have e : bits 21 21 (op * 67108864 + rd.val * 2097152 + rs1.val * 65536 + rs2.val * 2048 +
      (bif d then 1 else 0) * 1024) = rd.val % 2 := by
    cases d <;> simp only [bits, cond_true, cond_false] <;> norm_num <;> omega
  rw [e]
  rfl

theorem fieldsWord_rs1_even : (bits 16 16 (fieldsWord op rd rs1 rs2 d).toNat == 0) = Reg.isEven rs1 := by
  rw [fieldsWord_toNat h]
  have := rs2.isLt
  have e : bits 16 16 (op * 67108864 + rd.val * 2097152 + rs1.val * 65536 + rs2.val * 2048 +
      (bif d then 1 else 0) * 1024) = rs1.val % 2 := by
    cases d <;> simp only [bits, cond_true, cond_false] <;> norm_num <;> omega
  rw [e]
  rfl

theorem fieldsWord_rs2_even : (bits 11 11 (fieldsWord op rd rs1 rs2 d).toNat == 0) = Reg.isEven rs2 := by
  rw [fieldsWord_toNat h]
  have e : bits 11 11 (op * 67108864 + rd.val * 2097152 + rs1.val * 65536 + rs2.val * 2048 +
      (bif d then 1 else 0) * 1024) = rs2.val % 2 := by
    cases d <;> simp only [bits, cond_true, cond_false] <;> norm_num <;> omega
  rw [e]
  rfl

end Fields

/-- An opcode has six bits. -/
theorem opcode_lt (i : Instr) : i.opcode < 64 := by cases i <;> simp [Instr.opcode]

/-- The gate lets a command through exactly when its fixed-zero bits are 0 and its pair fields are even. -/
theorem gate_eq_cmd {fmt : Format} {n : Nat} {i j : Instr} :
    gate fmt n i = .cmd j ↔ fmt.fixedZero n = 0 ∧ fmt.pairsEven n = true ∧ i = j := by
  unfold gate
  split <;> [split; skip] <;> simp_all

end Sys2Proof
end

