-- ==== Sys2Proof/Laws/Flags.lean ====
section
/-! SUPPORT. What the multiprecision arithmetic and its carry, borrow and shifted-out bits return (40_multiprecision.md
R141 to R144), and the double-width operand. -/

namespace Sys2Proof.Machine

/-- The carry-out is 1 exactly when the exact sum reaches 2^n (R141). -/
theorem carryOut_eq (n a b : Nat) : carryOut n a b = decide (2 ^ n ≤ a + b) := by
  unfold carryOut
  by_cases h : 2 ^ n ≤ a + b
  · have : (a + b) / 2 ^ n ≠ 0 := (Nat.div_pos h (Nat.two_pow_pos n)).ne'
    simp [h, this]
  · simp [h, Nat.div_eq_of_lt (Nat.lt_of_not_le h)]

/-- The difference, wrapping in two's complement (R142). -/
theorem mpDiff_fst {n a b : Nat} (ha : a < 2 ^ n) (hb : b < 2 ^ n) :
    (mpDiff n a b).1 = if b ≤ a then a - b else a + 2 ^ n - b := by
  unfold mpDiff
  generalize 2 ^ n = R at *
  split
  · rename_i h
    rw [show (a : Int) - b = ((a - b : Nat) : Int) by omega, Int.emod_eq_of_lt (by omega) (by omega)]
    omega
  · rename_i h
    rw [← Int.add_emod_right, Int.emod_eq_of_lt (by omega) (by omega)]
    omega

/-- The bit shifted out to the left is 1 exactly when doubling an element value reaches R (R143). -/
theorem topBitOut_eq {b : Build} (hb : b.wf = true) {a : Nat} (ha : a < b.radix) :
    topBitOut b a = decide (b.radix ≤ 2 * a) := by
  have hpos : 1 ≤ b.elemBits := by
    simp only [Build.wf, Bool.and_eq_true, decide_eq_true_eq] at hb
    have : 1 ≤ b.w := by unfold Build.w; cases b.wordBits <;> decide
    exact Nat.mul_le_mul this hb.1
  have hR : b.radix = 2 * 2 ^ (b.elemBits - 1) := by
    rw [Build.radix, ← pow_succ']
    congr 1
    omega
  have h2 := Nat.two_pow_pos (b.elemBits - 1)
  unfold topBitOut
  rw [hR] at ha ⊢
  generalize 2 ^ (b.elemBits - 1) = H at *
  by_cases h : H ≤ a
  · have : a / H = 1 := Nat.div_eq_of_lt_le (by omega) (by omega)
    simp [this, h]
  · simp [Nat.div_eq_of_lt (Nat.lt_of_not_le h), h]

/-- The width of the double operand is that of two elements (R140). -/
theorem two_pow_mpBits_true (b : Build) : 2 ^ mpBits b true = b.radix ^ 2 := by
  simp only [mpBits, cond_true, Build.radix, two_mul, pow_add, sq]

/-- The double-width operand is below R^2 (10_state.md R32). -/
theorem double_lt {s : State} (hf : ∀ r : Reg, s.reg r < s.build.radix) (r : Reg) : s.double r < s.build.radix ^ 2 := by
  have h0 := hf r
  have h1 := hf (pairMate r)
  unfold State.double
  nlinarith

end Sys2Proof.Machine
end

