-- ==== Sys2Proof/Laws/PerInstr.lean ====
section
/-! SUPPORT. Per-instruction statements: the word of every command has the opcode of its row and zeros in the fixed-zero
bits of its format (30_encoding.md R112, R114). -/

/-- The encoded word's OP field is the command's opcode and its fixed-zero bits are 0. -/
def Sys2Proof.Laws.EncodedFields.Statement (i : Sys2Proof.Instr) : Prop :=
  Sys2Proof.bits 31 26 (Sys2Proof.encode i).toNat = i.opcode ∧ i.format.fixedZero (Sys2Proof.encode i).toNat = 0

namespace Sys2Proof.Laws.EncodedFields

theorem mpadd (double : Bool) (rd rs1 rs2 : Reg) : Statement (.mpadd double rd rs1 rs2) :=
  ⟨fieldsWord_op (opcode_lt _) rd rs1 rs2 double, fieldsWord_rsv (opcode_lt _) rd rs1 rs2 double⟩

theorem mpsub (double : Bool) (rd rs1 rs2 : Reg) : Statement (.mpsub double rd rs1 rs2) :=
  ⟨fieldsWord_op (opcode_lt _) rd rs1 rs2 double, fieldsWord_rsv (opcode_lt _) rd rs1 rs2 double⟩

theorem mpshl1 (rd rs1 : Reg) : Statement (.mpshl1 rd rs1) :=
  ⟨fieldsWord_op (opcode_lt _) rd rs1 0 false, fieldsWord_rs2_d_rsv (opcode_lt _) rd rs1⟩

theorem mpshr1 (rd rs1 : Reg) : Statement (.mpshr1 rd rs1) :=
  ⟨fieldsWord_op (opcode_lt _) rd rs1 0 false, fieldsWord_rs2_d_rsv (opcode_lt _) rd rs1⟩

theorem fmul (rd rs1 rs2 : Reg) : Statement (.fmul rd rs1 rs2) :=
  ⟨fieldsWord_op (opcode_lt _) rd rs1 rs2 false, fieldsWord_d_rsv (opcode_lt _) rd rs1 rs2⟩

theorem fsqr (rd rs1 : Reg) : Statement (.fsqr rd rs1) :=
  ⟨fieldsWord_op (opcode_lt _) rd rs1 0 false, fieldsWord_rs2_d_rsv (opcode_lt _) rd rs1⟩

theorem ftom (rd rs1 : Reg) : Statement (.ftom rd rs1) :=
  ⟨fieldsWord_op (opcode_lt _) rd rs1 0 false, fieldsWord_rs2_d_rsv (opcode_lt _) rd rs1⟩

theorem ffromm (rd rs1 : Reg) : Statement (.ffromm rd rs1) :=
  ⟨fieldsWord_op (opcode_lt _) rd rs1 0 false, fieldsWord_rs2_d_rsv (opcode_lt _) rd rs1⟩

theorem fcorr (rd rs1 : Reg) : Statement (.fcorr rd rs1) :=
  ⟨fieldsWord_op (opcode_lt _) rd rs1 0 false, fieldsWord_rs2_d_rsv (opcode_lt _) rd rs1⟩

theorem fadd (rd rs1 rs2 : Reg) : Statement (.fadd rd rs1 rs2) :=
  ⟨fieldsWord_op (opcode_lt _) rd rs1 rs2 false, fieldsWord_d_rsv (opcode_lt _) rd rs1 rs2⟩

theorem fsub (rd rs1 rs2 : Reg) : Statement (.fsub rd rs1 rs2) :=
  ⟨fieldsWord_op (opcode_lt _) rd rs1 rs2 false, fieldsWord_d_rsv (opcode_lt _) rd rs1 rs2⟩

theorem fneg (rd rs1 : Reg) : Statement (.fneg rd rs1) :=
  ⟨fieldsWord_op (opcode_lt _) rd rs1 0 false, fieldsWord_rs2_d_rsv (opcode_lt _) rd rs1⟩

theorem fhalf (rd rs1 : Reg) : Statement (.fhalf rd rs1) :=
  ⟨fieldsWord_op (opcode_lt _) rd rs1 0 false, fieldsWord_rs2_d_rsv (opcode_lt _) rd rs1⟩

theorem finvc (rd rs1 : Reg) : Statement (.finvc rd rs1) :=
  ⟨fieldsWord_op (opcode_lt _) rd rs1 0 false, fieldsWord_rs2_d_rsv (opcode_lt _) rd rs1⟩

theorem finv (rd rs1 : Reg) : Statement (.finv rd rs1) :=
  ⟨fieldsWord_op (opcode_lt _) rd rs1 0 false, fieldsWord_rs2_d_rsv (opcode_lt _) rd rs1⟩

theorem f2add (rd rs1 rs2 : Reg) : Statement (.f2add rd rs1 rs2) :=
  ⟨fieldsWord_op (opcode_lt _) rd rs1 rs2 false, fieldsWord_d_rsv (opcode_lt _) rd rs1 rs2⟩

theorem f2sub (rd rs1 rs2 : Reg) : Statement (.f2sub rd rs1 rs2) :=
  ⟨fieldsWord_op (opcode_lt _) rd rs1 rs2 false, fieldsWord_d_rsv (opcode_lt _) rd rs1 rs2⟩

theorem f2neg (rd rs1 : Reg) : Statement (.f2neg rd rs1) :=
  ⟨fieldsWord_op (opcode_lt _) rd rs1 0 false, fieldsWord_rs2_d_rsv (opcode_lt _) rd rs1⟩

theorem f2half (rd rs1 : Reg) : Statement (.f2half rd rs1) :=
  ⟨fieldsWord_op (opcode_lt _) rd rs1 0 false, fieldsWord_rs2_d_rsv (opcode_lt _) rd rs1⟩

theorem f2corr (rd rs1 : Reg) : Statement (.f2corr rd rs1) :=
  ⟨fieldsWord_op (opcode_lt _) rd rs1 0 false, fieldsWord_rs2_d_rsv (opcode_lt _) rd rs1⟩

theorem f2mul (rd rs1 rs2 : Reg) : Statement (.f2mul rd rs1 rs2) :=
  ⟨fieldsWord_op (opcode_lt _) rd rs1 rs2 false, fieldsWord_d_rsv (opcode_lt _) rd rs1 rs2⟩

theorem f2sqr (rd rs1 : Reg) : Statement (.f2sqr rd rs1) :=
  ⟨fieldsWord_op (opcode_lt _) rd rs1 0 false, fieldsWord_rs2_d_rsv (opcode_lt _) rd rs1⟩

theorem f2inv (rd rs1 : Reg) : Statement (.f2inv rd rs1) :=
  ⟨fieldsWord_op (opcode_lt _) rd rs1 0 false, fieldsWord_rs2_d_rsv (opcode_lt _) rd rs1⟩

theorem f2tom (rd rs1 : Reg) : Statement (.f2tom rd rs1) :=
  ⟨fieldsWord_op (opcode_lt _) rd rs1 0 false, fieldsWord_rs2_d_rsv (opcode_lt _) rd rs1⟩

theorem f2fromm (rd rs1 : Reg) : Statement (.f2fromm rd rs1) :=
  ⟨fieldsWord_op (opcode_lt _) rd rs1 0 false, fieldsWord_rs2_d_rsv (opcode_lt _) rd rs1⟩

end Sys2Proof.Laws.EncodedFields
end

