-- ==== Sys2Proof/Tests/Slice0.lean ====
section
/-! SUPPORT. The model's own tests: well-formedness, decoding of words written out from 30_encoding.md, one-step vectors of
95_test_vectors.md, and for the hypotheses of every statement a witness that meets them. The expected values are the
spec's. The toy instantiation is 95_test_vectors.md section 2. -/

namespace Sys2Proof.Tests

open Sys2Proof.Machine

/-! ## Helpers -/

/-- The constants of the toy instantiation. -/
def toyConstants : Constants := ⟨431, 145, 0xB1⟩

/-- The chain table of the toy instantiation: CHAIN_CFG = 0x0002_0104, two steps, E = 107. -/
def toyChain : ChainTable :=
  { chainCfgWrite 0x00020104 ChainTable.reset with
    steps := ((Vector.replicate 256 ⟨0, 0⟩).set 0 (chainStepOf 0x00020004)).set 1 (chainStepOf 0x00000001) }

/-- The toy CORE after the boot sequence, with the first F registers holding `l`, and `script` to come. -/
def toy (l : List Nat) (script : List Event := []) : State :=
  { State.reset with
    f := Vector.ofFn (fun i => l.getD i.val 0)
    consts := toyConstants
    chain := toyChain
    ctrl := ⟨true, false, false⟩
    script := script }

/-- The same with LOCK = 0. -/
def unlocked (l : List Nat) (script : List Event := []) : State := { toy l script with ctrl := ⟨false, false, false⟩ }

/-- The same with FMUL f3, f0, f1 in flight. -/
def busyToy (l : List Nat) (script : List Event := []) : State :=
  { toy l script with engine := some (fieldResult 3 (montMul Config.build toyConstants (l.getD 0 0) (l.getD 1 0))) }

/-- The same with a rejection recorded and DONE = 1. -/
def errToy (l : List Nat) (script : List Event := []) : State := { toy l script with status := ⟨true, true, false, some .busy⟩ }

/-- What registers `rs` and C hold after the command has completed, if it was accepted. -/
def result (i : Instr) (l : List Nat) (rs : List Reg) : Option (List Nat × Bool) :=
  match exec i (toy l) with
  | .next t => if t.busy then some (rs.map (engineTurn t).reg, (engineTurn t).status.c) else none
  | .fault _ => none
  | .refused _ => none

/-- The state a step leads to. -/
def after (s : State) : State :=
  match step s with
  | .next t => t
  | .fault _ => s
  | .refused _ => s

/-- ERRCODE after the step of a state. -/
def codeAfter (s : State) : Option RejectCode := (after s).status.errcode

/-- The response after the step of a state. -/
def respAfter (s : State) : Option Response := (after s).resp

/-- A host write, a host read and a CMD write as events. -/
def wr (n : Nat) (v : Word) : Event := .access (writeAt n v)
def rd (n : Nat) : Event := .access (readAt n)
def cmd (w : Word) : Event := .access (cmdWrite w)

/-! ## Well-formedness (30_encoding.md R112): an ill-formed term for each check -/

theorem test_wf_single_any_register : (Instr.fmul 31 1 3).wf = true ∧ (Instr.finv 1 1).wf = true := by decide
theorem test_wf_mp_single : (Instr.mpadd false 1 3 5).wf = true ∧ (Instr.mpsub false 1 3 5).wf = true := by decide
theorem test_wf_mp_double : (Instr.mpadd true 1 2 4).wf = false ∧ (Instr.mpadd true 0 1 4).wf = false ∧
    (Instr.mpadd true 0 2 5).wf = false ∧ (Instr.mpsub true 1 2 4).wf = false ∧ (Instr.mpsub true 0 3 4).wf = false ∧
    (Instr.mpsub true 0 2 31).wf = false ∧ (Instr.mpadd true 0 2 30).wf = true := by decide
theorem test_wf_p3 : (Instr.f2add 1 0 2).wf = false ∧ (Instr.f2add 0 1 2).wf = false ∧ (Instr.f2add 0 2 3).wf = false ∧
    (Instr.f2sub 1 0 2).wf = false ∧ (Instr.f2sub 0 1 2).wf = false ∧ (Instr.f2sub 0 2 3).wf = false ∧
    (Instr.f2mul 1 0 2).wf = false ∧ (Instr.f2mul 0 1 2).wf = false ∧ (Instr.f2mul 0 2 3).wf = false ∧
    (Instr.f2mul 4 0 2).wf = true := by decide
theorem test_wf_p2_rd : (Instr.f2neg 1 0).wf = false ∧ (Instr.f2half 1 0).wf = false ∧ (Instr.f2corr 1 0).wf = false ∧
    (Instr.f2sqr 1 0).wf = false ∧ (Instr.f2inv 1 0).wf = false ∧ (Instr.f2tom 1 0).wf = false ∧
    (Instr.f2fromm 1 0).wf = false := by decide
theorem test_wf_p2_rs1 : (Instr.f2neg 0 1).wf = false ∧ (Instr.f2half 0 1).wf = false ∧ (Instr.f2corr 0 1).wf = false ∧
    (Instr.f2sqr 0 1).wf = false ∧ (Instr.f2inv 0 1).wf = false ∧ (Instr.f2tom 0 1).wf = false ∧
    (Instr.f2fromm 0 31).wf = false := by decide

/-! ## Decoding: OP, RD, RS1, RS2, D, RSV written out (R111, R114); the words of 95_test_vectors.md where it has one -/

theorem test_decode_mpadd : decode 0b00000100001000100010000000000000 = .cmd (.mpadd false 1 2 4) ∧
    decode 0x04222000 = .cmd (.mpadd false 1 2 4) ∧ decode 0x04022400 = .cmd (.mpadd true 0 2 4) := by decide
theorem test_decode_mpsub : decode 0b00001001000000100000010000000000 = .cmd (.mpsub true 8 2 0) ∧
    decode 0x09020400 = .cmd (.mpsub true 8 2 0) ∧ decode 0x0BFF0800 = .cmd (.mpsub false 31 31 1) := by decide
theorem test_decode_mpshl1 : decode 0b00001100001000100000000000000000 = .cmd (.mpshl1 1 2) := by decide
theorem test_decode_mpshr1 : decode 0b00010000111000000000000000000000 = .cmd (.mpshr1 7 0) ∧
    decode 0x10E00000 = .cmd (.mpshr1 7 0) := by decide
theorem test_decode_fmul : decode 0b00100000011000010001000000000000 = .cmd (.fmul 3 1 2) ∧
    decode 0x20611000 = .cmd (.fmul 3 1 2) := by decide
theorem test_decode_fsqr : decode 0b00100100010111110000000000000000 = .cmd (.fsqr 2 31) := by decide
theorem test_decode_ftom : decode 0b00101000001000010000000000000000 = .cmd (.ftom 1 1) ∧
    decode 0x28210000 = .cmd (.ftom 1 1) := by decide
theorem test_decode_ffromm : decode 0b00101100100000110000000000000000 = .cmd (.ffromm 4 3) ∧
    decode 0x2C830000 = .cmd (.ffromm 4 3) := by decide
theorem test_decode_fcorr : decode 0b00110000011000110000000000000000 = .cmd (.fcorr 3 3) ∧
    decode 0x30630000 = .cmd (.fcorr 3 3) := by decide
theorem test_decode_fadd : decode 0b01000011111000010001000000000000 = .cmd (.fadd 31 1 2) := by decide
theorem test_decode_fsub : decode 0b01000100001000101111100000000000 = .cmd (.fsub 1 2 31) := by decide
theorem test_decode_fneg : decode 0b01001000101000110000000000000000 = .cmd (.fneg 5 3) := by decide
theorem test_decode_fhalf : decode 0b01001100101000110000000000000000 = .cmd (.fhalf 5 3) := by decide
theorem test_decode_finvc : decode 0b01100000101000010000000000000000 = .cmd (.finvc 5 1) ∧
    decode 0x60A10000 = .cmd (.finvc 5 1) := by decide
theorem test_decode_finv : decode 0b01100100010000010000000000000000 = .cmd (.finv 2 1) ∧
    decode 0x64410000 = .cmd (.finv 2 1) := by decide
theorem test_decode_f2add : decode 0b10000000010001000011000000000000 = .cmd (.f2add 2 4 6) := by decide
theorem test_decode_f2sub : decode 0b10000100010001000011000000000000 = .cmd (.f2sub 2 4 6) := by decide
theorem test_decode_f2neg : decode 0b10001000010001000000000000000000 = .cmd (.f2neg 2 4) := by decide
theorem test_decode_f2half : decode 0b10001100010001000000000000000000 = .cmd (.f2half 2 4) := by decide
theorem test_decode_f2corr : decode 0b10010010000100000000000000000000 = .cmd (.f2corr 16 16) ∧
    decode 0x92100000 = .cmd (.f2corr 16 16) := by decide
theorem test_decode_f2mul : decode 0b10010100100000000001000000000000 = .cmd (.f2mul 4 0 2) ∧
    decode 0x94801000 = .cmd (.f2mul 4 0 2) := by decide
theorem test_decode_f2sqr : decode 0b10011000110000000000000000000000 = .cmd (.f2sqr 6 0) ∧
    decode 0x98C00000 = .cmd (.f2sqr 6 0) := by decide
theorem test_decode_f2inv : decode 0b10011101110000000000000000000000 = .cmd (.f2inv 14 0) ∧
    decode 0x9DC00000 = .cmd (.f2inv 14 0) := by decide
theorem test_decode_f2tom : decode 0b10100000000000000000000000000000 = .cmd (.f2tom 0 0) ∧
    decode 0xA0420000 = .cmd (.f2tom 2 2) := by decide
theorem test_decode_f2fromm : decode 0b10100101100010000000000000000000 = .cmd (.f2fromm 12 8) ∧
    decode 0xA5880000 = .cmd (.f2fromm 12 8) := by decide
/-- 95_test_vectors.md 3.6: the rejected words, and the order of the checks. -/
theorem test_decode_rejects : decode 0x00000000 = .reject .illegalOpcode ∧ decode 0xFC000000 = .reject .illegalOpcode ∧
    decode 0x20611001 = .reject .reservedBits ∧ decode 0x20611400 = .reject .reservedBits ∧
    decode 0x94201000 = .reject .misalignedPair ∧ decode 0x88200800 = .reject .reservedBits ∧
    decode 0x64410800 = .reject .reservedBits ∧ decode 0x04222400 = .reject .misalignedPair := by decide
/-- The opcodes next to the used ones are reserved (R117). -/
theorem test_decode_reserved_opcodes : decode 0x14000000 = .reject .illegalOpcode ∧
    decode 0x34000000 = .reject .illegalOpcode ∧ decode 0x50000000 = .reject .illegalOpcode ∧
    decode 0x68000000 = .reject .illegalOpcode ∧ decode 0xA8000000 = .reject .illegalOpcode := by decide
theorem test_table_word : decodeTableWord 32 0x20611000 = some (.fmul 3 1 2) ∧ decodeTableWord 32 0 = none := by decide
/-- R119, R120: the assembler text and the pseudo-instructions. -/
theorem test_asm : (Instr.mpadd true 0 2 4).asm = "mpadd.d f0, f2, f4" ∧ (Instr.fdbl 3 1).asm = "fadd f3, f1, f1" ∧
    (Instr.f2dbl 2 4).asm = "f2add f2, f4, f4" ∧ (Instr.finv 2 1).asm = "finv f2, f1" := by decide

/-! ## One command each: 95_test_vectors.md 3.1 to 3.5 -/

theorem test_mpadd_wraps : result (.mpadd false 9 0 1) [0xFFFF, 0x0001] [9] = some ([0], true) := by decide
theorem test_mpadd_double : result (.mpadd true 0 0 2) [0xFFFF, 0x0001, 0xFFFF, 0] [0, 1] = some ([0xFFFE, 0x0002], false) := by
  decide
theorem test_mpsub_borrow : result (.mpsub false 1 0 1) [0, 1] [1] = some ([0xFFFF], true) := by decide
theorem test_mpsub_double : result (.mpsub true 8 0 2) [0, 1, 1, 0] [8, 9] = some ([0xFFFF, 0], false) := by decide
theorem test_mpshl1 : result (.mpshl1 9 0) [0x8001] [9] = some ([0x0002], true) := by decide
theorem test_mpshl1_top_bit_only : result (.mpshl1 9 0) [0x4000] [9] = some ([0x8000], false) := by decide
theorem test_mpshr1 : result (.mpshr1 9 0) [0x8001] [9] = some ([0x4000], true) := by decide
theorem test_fmul : result (.fmul 0 0 1) [48, 72] [0, 1] = some ([144, 72], false) := by decide
theorem test_fmul_out_of_domain : result (.fmul 9 0 1) [0xFFFF, 0xFFFF] [9] = some ([0x0010], false) := by decide
theorem test_fsqr : result (.fsqr 9 0) [72] [9] = some ([216], false) := by decide
theorem test_ftom : result (.ftom 9 0) [860] [9] = some ([383], false) := by decide
theorem test_ffromm : result (.ffromm 9 0) [860] [9] = some ([395], false) := by decide
theorem test_ffromm_p : result (.ffromm 9 0) [431] [9] = some ([0], false) := by decide
theorem test_fcorr_both_stages : result (.fcorr 9 0) [1292] [9] = some ([430], false) := by decide
theorem test_fcorr_two_stages_only : result (.fcorr 9 0) [1293] [9] = some ([431], false) := by decide
theorem test_fadd : result (.fadd 9 0 1) [431, 431] [9] = some ([0], false) := by decide
theorem test_fadd_out_of_domain : result (.fadd 9 0 1) [0xFFFF, 0xFFFF] [9] = some ([0xFCA0], false) := by decide
theorem test_fsub : result (.fsub 9 0 1) [5, 10] [9] = some ([857], false) := by decide
theorem test_fsub_out_of_domain : result (.fsub 9 0 1) [0, 0xFFFF] [9] = some ([0x035F], false) := by decide
theorem test_fneg_zero : result (.fneg 9 0) [0] [9] = some ([0], false) := by decide
theorem test_fneg : result (.fneg 9 0) [430] [9] = some ([432], false) := by decide
theorem test_fhalf_odd : result (.fhalf 9 0) [7] [9] = some ([219], false) := by decide
theorem test_fhalf_top_bit : result (.fhalf 9 0) [0xFFFF] [9] = some ([0x80D7], false) := by decide
theorem test_finvc : result (.finvc 9 0) [48] [9] = some ([330], false) := by decide
theorem test_finvc_p : result (.finvc 9 0) [431] [9] = some ([431], false) := by decide
theorem test_finv : result (.finv 9 0) [48] [9] = some ([12], false) := by decide
theorem test_finv_zero : result (.finv 9 0) [0] [9] = some ([0], false) := by decide
theorem test_f2add : result (.f2add 0 0 2) [48, 72, 120, 168] [0, 1, 2, 3] = some ([168, 240, 120, 168], false) := by decide
theorem test_f2sub : result (.f2sub 8 0 2) [48, 72, 120, 168] [8, 9] = some ([790, 766], false) := by decide
theorem test_f2neg : result (.f2neg 8 0) [48, 72] [8, 9] = some ([814, 790], false) := by decide
theorem test_f2half : result (.f2half 8 0) [48, 72] [8, 9] = some ([24, 36], false) := by decide
theorem test_f2corr : result (.f2corr 8 0) [436, 861] [8, 9] = some ([5, 430], false) := by decide
theorem test_f2mul : result (.f2mul 8 0 2) [48, 72, 120, 168] [8, 9] = some ([167, 696], false) := by decide
theorem test_f2mul_in_place : result (.f2mul 0 0 0) [48, 72] [0, 1] = some ([742, 719], false) := by decide
theorem test_f2sqr : result (.f2sqr 8 0) [48, 72] [8, 9] = some ([311, 288], false) := by decide
theorem test_f2inv : result (.f2inv 8 0) [48, 72] [8, 9] = some ([70, 326], false) := by decide
theorem test_f2inv_i_and_p : result (.f2inv 8 0) [0, 24] [8, 9] = some ([0, 407], false) ∧
    result (.f2inv 8 0) [431, 0] [8, 9] = some ([431, 0], false) := by decide
theorem test_f2tom : result (.f2tom 8 0) [5, 7] [8, 9] = some ([120, 168], false) := by decide
theorem test_f2fromm : result (.f2fromm 8 0) [48, 72] [8, 9] = some ([2, 3], false) := by decide
/-- 43_inversion.md R222: the exponent of the toy table, and 95_test_vectors.md 3.4: validity at its boundaries. -/
theorem test_chain_exponent : toyChain.exponent = 107 := by decide
theorem test_chain_validity : toyChain.valid = true ∧ (chainCfgWrite 0x00000000 toyChain).valid = false ∧
    (chainCfgWrite 0x00000404 toyChain).valid = false ∧ (chainCfgWrite 0x00000011 toyChain).valid = false ∧
    (chainCfgWrite 0x01010004 toyChain).valid = false ∧ (chainCfgWrite 0x00000001 toyChain).valid = true := by decide
/-- NPOW = 16, J0 = 15 and NSTEPS = 256 are the largest valid values (10_state.md R39). -/
theorem test_chain_validity_largest : (chainCfgWrite 0x01000F10 ChainTable.reset).valid = true := by
  refine (Bool.and_eq_true _ _).mpr ⟨by decide, List.all_eq_true.2 fun st h => ?_⟩
  have hst : st = ⟨0, 0⟩ := (Vector.mem_replicate.1 (Vector.mem_toList_iff.1 (List.mem_of_mem_take h))).2
  subst hst
  decide

/-! ## The bus and the life of a command: 95_test_vectors.md 3.6, 3.7 -/

theorem test_id : respAfter (toy [] [rd 0x0000]) = some ⟨false, some 0x53460001⟩ := by decide
theorem test_cfg0 : respAfter (toy [] [rd 0x0004]) = some ⟨false, some 0x01200208⟩ := by decide
theorem test_cfg1 : respAfter (toy [] [rd 0x0008]) = some ⟨false, some 0x00100100⟩ := by decide
theorem test_cmd_reads_zero : respAfter (toy [] [rd 0x0018]) = some ⟨false, some 0⟩ := by decide
theorem test_unmapped : respAfter (toy [] [rd 0x0030]) = some ⟨true, some 0⟩ := by decide
theorem test_misaligned_write : respAfter (toy [] [wr 0x0011 0]) = some ⟨true, none⟩ := by decide
theorem test_half_access : respAfter (toy [] [.access ⟨false, 0x0014, 0x3, 0⟩]) = some ⟨true, some 0⟩ := by decide
theorem test_busy_f_read : respAfter (busyToy [] [rd 0x1080]) = some ⟨true, some 0⟩ := by decide
theorem test_busy_p_read : targetOf 0x0080 = .p 0 ∧ refusedAt false (.p 0) (busyToy []) = false ∧
    readData (.p 0) (busyToy []) = 431 := by decide
theorem test_locked_p_write : respAfter (toy [] [wr 0x0080 5]) = some ⟨true, none⟩ ∧
    (after (toy [] [wr 0x0080 5])).consts = toyConstants := by decide
theorem test_f_write_cuts : respAfter (toy [7] [wr 0x1000 0x0001FFFF]) = some ⟨false, none⟩ ∧
    (after (toy [7] [wr 0x1000 0x0001FFFF])).reg 0 = 0xFFFF := by decide
theorem test_lock_stays : respAfter (toy [] [wr 0x0010 0]) = some ⟨false, none⟩ ∧
    (after (toy [] [wr 0x0010 0])).ctrl.lock = true := by decide
theorem test_reject_codes : codeAfter (unlocked [] [cmd 0x20611000]) = some .notLocked ∧
    codeAfter (busyToy [] [cmd 0x20611000]) = some .busy ∧ codeAfter (toy [] [cmd 0]) = some .illegalOpcode ∧
    codeAfter (toy [] [cmd 0x20611001]) = some .reservedBits ∧ codeAfter (toy [] [cmd 0x94201000]) = some .misalignedPair ∧
    codeAfter { toy [] [cmd 0x64410000] with chain := ChainTable.reset } = some .badChain ∧
    codeAfter (toy [] [cmd 0x64410000]) = none := by decide
/-- 10_state.md R44: the first error wins. -/
theorem test_first_error_wins : codeAfter (errToy [] [cmd 0]) = some .busy := by decide
/-- 20_memory.md R86: the sources are sampled at the CMD write, so a destination that is a source reads its old value. -/
theorem test_sampled_at_acceptance : (engineTurn (busyToy [48, 72])).reg 3 = 144 := by decide
theorem test_fetch_word : (after (State.reset.withFetchWord 32 0x64410000)).busy = true := by decide

/-! ## Witnesses: for the hypotheses of each statement, a concrete state and operands that meet them together; where a
statement has several clauses, one for each -/

/-- The toy states meet the invariant. -/
theorem toy_inv : (toy [48, 72, 120, 168]).Inv where
  build := by decide
  f := by decide
  p := by decide
  r2 := by decide
  pprime := by decide
  errcode := by decide
  inFlight := by intro r h; cases h

theorem toy_ready : (toy [48, 72, 120, 168]).Ready := by
  unfold State.Ready
  decide

theorem toy_headroom : Headroom Config.build toyConstants := ⟨by decide, by decide, by decide, by decide⟩

theorem toy_consistent : Consistent Config.build toyConstants := ⟨by decide, by decide⟩

theorem toy_prime : toyConstants.p.Prime := by
  show Nat.Prime 431
  norm_num

/-- DecodeOfEncode, LoadedCommandIsAccepted: well-formed commands of each kind of format. -/
theorem wit_wf : (Instr.fmul 31 30 29).wf = true ∧ (Instr.mpadd true 30 0 2).wf = true ∧ (Instr.mpsub false 1 3 5).wf = true ∧
    (Instr.finv 1 1).wf = true ∧ (Instr.f2mul 30 28 0).wf = true ∧ (Instr.f2inv 14 30).wf = true := by decide
/-- EncodeOfDecode: a word that decodes to a command. -/
theorem wit_decodes : decode 0x20611000 = .cmd (.fmul 3 1 2) := by decide
/-- DecodeChecksInOrder: an opcode outside the map (the first, one between two rows, the last), and for one in the map a
word for each check that fails and one that passes, the largest operands among them. -/
theorem wit_decode_checks : (0x00 : Nat) ∉ opcodeMap.map Prod.fst ∧ 0x05 ∉ opcodeMap.map Prod.fst ∧
    0x3F ∉ opcodeMap.map Prod.fst ∧ (0x25, Format.p3) ∈ opcodeMap ∧ (0x94801001 : Word) &&& zeroMask .p3 ≠ 0 ∧
    (0x94801400 : Word) &&& zeroMask .p3 ≠ 0 ∧ (0x94201000 : Word) &&& zeroMask .p3 = 0 ∧
    namesOddPair .p3 0x94201000 = true ∧ (0x97DEF000 : Word) &&& zeroMask .p3 = 0 ∧
    namesOddPair .p3 0x97DEF000 = false := by decide
/-- StepRunsDecodedCommand. -/
theorem wit_step_runs : (toy [48, 72] [cmd 0x20611000]).script = .access (cmdWrite 0x20611000) :: [] ∧
    (toy [48, 72] [cmd 0x20611000]).busy = false ∧ (toy [48, 72] [cmd 0x20611000]).ctrl.lock = true ∧
    decode 0x20611000 = .cmd (.fmul 3 1 2) := by decide
/-- AcceptanceChecksInOrder: one state for each branch. -/
theorem wit_acceptance : (busyToy [] [cmd 0]).busy = true ∧ (unlocked [] [cmd 0]).busy = false ∧
    (unlocked [] [cmd 0]).ctrl.lock = false ∧ decode 0x20611001 = .reject .reservedBits ∧
    decode 0x64410000 = .cmd (.finv 2 1) ∧ (profile (.finv 2 1)).chain = true ∧ ChainTable.reset.valid = false ∧
    toyChain.valid = true ∧ (errToy [] []).status.err = true ∧ (errToy [] []).busy = false := by decide
/-- OddPairRejects: a ready state and an ill-formed command. -/
theorem wit_odd_pair : (toy [48, 72, 120, 168]).Ready ∧ (Instr.f2mul 1 0 2).wf = false := ⟨toy_ready, by decide⟩
/-- ChainTableValidity, InversionResults: a ready state whose table is not valid, and one whose table is. -/
theorem wit_bad_chain : ({ toy [] with chain := ChainTable.reset }).Ready ∧
    ({ toy [] with chain := ChainTable.reset }).chain.valid = false ∧ ((2 : Reg).val % 2 = 0 ∧ (30 : Reg).val % 2 = 0) := by
  unfold State.Ready
  decide
theorem wit_good_chain : (toy [48, 72, 120, 168]).Ready ∧ (toy [48, 72, 120, 168]).chain.valid = true :=
  ⟨toy_ready, by decide⟩
/-- StatusWordLayout: a read of STATUS while BUSY, and while an error is recorded. -/
theorem wit_status_read : (busyToy [] [rd 0x0014]).script = .access (readAt 0x0014) :: [] ∧
    respAfter (busyToy [] [rd 0x0014]) = some ⟨false, some 0x00000001⟩ ∧
    respAfter (errToy [] [rd 0x0014]) = some ⟨false, some 0x00000506⟩ := by decide
/-- CompletionPublishesResults: the engine's turn with and without a command in flight, said and unsaid. -/
theorem wit_engine : EngineMoves (busyToy [48, 72] [.engine]) ∧ EngineMoves (busyToy [48, 72]) ∧ EngineMoves (toy []) ∧
    (busyToy [48, 72]).engine.isSome = true ∧ (toy []).engine.isSome = false :=
  ⟨.inr ⟨[], rfl⟩, .inl rfl, .inl rfl, by decide, by decide⟩
/-- BusyAndDoneChanges: BUSY changes at an acceptance, at a completion and at a reset edge. -/
theorem wit_busy_changes : (after (toy [] [cmd 0x20611000])).busy ≠ (toy [] [cmd 0x20611000]).busy ∧
    (after (busyToy [])).busy ≠ (busyToy []).busy ∧
    (after (busyToy [] [.reset none])).busy ≠ (busyToy [] [.reset none]).busy := by decide
/-- BusyAndDoneChanges: DONE changes at an acceptance, at a completion, by a write to STATUS and at a reset edge. -/
theorem wit_done_changes : (after (errToy [] [cmd 0x20611000])).status.done ≠ (errToy [] [cmd 0x20611000]).status.done ∧
    (after (busyToy [])).status.done ≠ (busyToy []).status.done ∧
    (after (errToy [] [wr 0x0014 2])).status.done ≠ (errToy [] [wr 0x0014 2]).status.done ∧
    (after (errToy [] [.reset none])).status.done ≠ (errToy [] [.reset none]).status.done := by decide
/-- ErrorRecordChanges: unchanged by a second rejection, changed by a first one, by a write to STATUS and at a reset edge. -/
theorem wit_error_changes : (after (errToy [] [cmd 0])).status.errcode = some .busy ∧
    (after (toy [] [cmd 0])).status.errcode = some .illegalOpcode ∧ (after (errToy [] [wr 0x0014 4])).status.errcode = none ∧
    (after (errToy [] [.reset none])).status.errcode = none := by decide
/-- CarryWrittenOnlyByMultiprecision: a command accepted by an idle CORE, one that writes C and one that does not; C
changed by a completion and by a reset edge. -/
theorem wit_carry : ∃ t r t' r', exec (.mpadd false 2 0 1) (toy [0xFFFF, 1]) = .next t ∧ (toy [0xFFFF, 1]).busy = false ∧
    t.engine = some r ∧ r.carry = some true ∧ exec (.fadd 2 0 1) (toy [0xFFFF, 1]) = .next t' ∧ t'.engine = some r' ∧
    r'.carry = none := ⟨_, _, _, _, rfl, rfl, rfl, rfl, rfl, rfl, rfl⟩
theorem wit_carry_changes :
    let s : State := { toy [] with engine := some ⟨destOne 2 0, some true⟩ }
    let r : State := { toy [] [.reset none] with status := ⟨false, false, true, none⟩ }
    (after s).status.c ≠ s.status.c ∧ (after r).status.c ≠ r.status.c := by decide
/-- ResetEdgeLeaves: a reset edge while a command is in flight, without and with an access presented at it. -/
theorem wit_reset : (busyToy [] [.reset none]).script = .reset none :: [] ∧
    (busyToy [] [.reset (some (writeAt 0x1000 5))]).script = .reset (some (writeAt 0x1000 5)) :: [] := by decide
/-- SlverrExactly: each bad case at the ends of its ranges. -/
theorem wit_slverr_unmapped : unmappedOffset 0x000C ∧ unmappedOffset 0x001C ∧ unmappedOffset 0x0024 ∧ unmappedOffset 0x0030 ∧
    unmappedOffset 0x007C ∧ unmappedOffset 0x0180 ∧ unmappedOffset 0x03FC ∧ unmappedOffset 0x0800 ∧ unmappedOffset 0x0FFC ∧
    ¬ unmappedOffset 0x0028 ∧ ¬ unmappedOffset 0x0020 ∧ ¬ unmappedOffset 0x0010 ∧ ¬ unmappedOffset 0x0018 := by
  simp [unmappedOffset]
theorem wit_slverr_frozen : frozenOffset 0x0020 ∧ frozenOffset 0x0028 ∧ frozenOffset 0x002C ∧ frozenOffset 0x0080 ∧
    frozenOffset 0x017C ∧ frozenOffset 0x0400 ∧ frozenOffset 0x07FC ∧ ¬ frozenOffset 0x0024 ∧ ¬ frozenOffset 0x0018 ∧
    fOffset 0x1000 ∧ fOffset 0x1FFC ∧ ¬ fOffset 0x0FFC := by
  simp [frozenOffset, fOffset]
theorem wit_slverr : respAfter (busyToy [] [rd 0x1FFC]) = some ⟨true, some 0⟩ ∧
    respAfter (toy [] [wr 0x07FC 0]) = some ⟨true, none⟩ ∧ respAfter (unlocked [] [wr 0x07FC 0]) = some ⟨false, none⟩ ∧
    respAfter (toy [] [rd 0x07FC]) = some ⟨false, some 0⟩ ∧ respAfter (toy [] [rd 0x1FFC]) = some ⟨false, some 0⟩ ∧
    respAfter (toy [] [rd 0x0FFC]) = some ⟨true, some 0⟩ ∧ respAfter (busyToy [] [cmd 0]) = some ⟨false, none⟩ := by decide
/-- SlverrExactly, entry 16: the first slots above L = 1 of the P and R2 windows, written while LOCK = 1. -/
theorem wit_slverr_slots_above : frozenOffset 0x0084 ∧ frozenOffset 0x0104 ∧ (toy []).ctrl.lock = true ∧
    (toy []).build.limbs = 1 :=
  ⟨by simp [frozenOffset], by simp [frozenOffset], rfl, by decide⟩
/-- ReadsHaveNoSideEffect. -/
theorem wit_read : (readAt 0x0014).write = false ∧ ∃ t, step (toy [] [rd 0x0014]) = .next t := ⟨rfl, _, rfl⟩
/-- IdentificationRegisters: the largest legal build. -/
theorem wit_identification : (State.resetOf ⟨.w64, 16⟩).build.wf = true ∧
    respAfter { State.resetOf ⟨.w64, 16⟩ with script := [rd 0x0004] } = some ⟨false, some 0x20201040⟩ := by decide
/-- CtrlRegister, StatusWriteOneClears: the writes of each bit, in either state of it. -/
theorem wit_ctrl : (after (unlocked [] [wr 0x0010 7])).ctrl = ⟨true, true, true⟩ ∧
    (after (unlocked [] [wr 0x0010 0])).ctrl = ⟨false, false, false⟩ := by decide
theorem wit_status : (after (errToy [] [wr 0x0014 6])).status = ⟨false, false, false, none⟩ ∧
    (after (errToy [] [wr 0x0014 1])).status = ⟨true, true, false, some .busy⟩ := by decide
/-- LimbWrite, LimbRead: the last slot of the last register in the widest build, which meets the invariant. -/
theorem wit_wide_inv : (State.resetOf ⟨.w64, 16⟩).Inv where
  build := by decide
  f := by
    intro r
    simp [State.resetOf, State.reg, Build.radix]
  p := Nat.two_pow_pos _
  r2 := Nat.two_pow_pos _
  pprime := Nat.two_pow_pos _
  errcode := rfl
  inFlight := by intro r h; cases h
theorem wit_limb : (State.resetOf ⟨.w64, 16⟩).busy = false ∧ 31 < (State.resetOf ⟨.w64, 16⟩).build.limbs ∧
    0x1000 + 0x80 * (31 : Reg).val + 4 * 31 = 0x1FFC := by decide
theorem test_limb_write : (after { State.resetOf ⟨.w32, 3⟩ with script := [wr 0x1F88 0xDEADBEEF] }).reg 31 =
    0xDEADBEEF0000000000000000 := by decide
/-- LimbWrite: the same for P and R2, unlocked, with a limb below that stays. -/
theorem test_limb_write_consts :
    let s : State := { State.resetOf ⟨.w32, 3⟩ with consts := ⟨5, 7, 0⟩ }
    s.ctrl.lock = false ∧ (after { s with script := [wr 0x0088 0xDEADBEEF] }).consts.p = 0xDEADBEEF0000000000000005 ∧
    (after { s with script := [wr 0x0108 0xDEADBEEF] }).consts.r2 = 0xDEADBEEF0000000000000007 := by decide
/-- SlotsAboveLIgnoreWrites: the first and the last slot above L of the toy build, idle for F, unlocked for P and R2. -/
theorem wit_slots_above : (unlocked [7]).build.limbs ≤ 1 ∧ (31 : Nat) < 32 ∧ (unlocked [7]).busy = false ∧
    (unlocked [7]).ctrl.lock = false ∧ (after (unlocked [7] [wr 0x1004 0xDEADBEEF])).reg 0 = 7 ∧
    targetOf 0x00FC = .p 31 ∧ targetOf 0x017C = .r2 31 ∧ slotWrite Config.build 31 1 431 = 431 := by decide
/-- LimbsAssembleTheValue. -/
theorem wit_limbs : (0xFFFF : Nat) < Config.build.radix := by decide
/-- PprimeSlots: an unlocked state that meets the invariant, of w = 8; and one of w = 64. -/
theorem wit_unlocked_inv : (unlocked [48]).Inv where
  build := by decide
  f := by decide
  p := by decide
  r2 := by decide
  pprime := by decide
  errcode := by decide
  inFlight := by intro r h; cases h
theorem wit_pprime : (unlocked [48]).ctrl.lock = false ∧ (after (unlocked [] [wr 0x0028 0x1FF])).consts.pprime = 0xFF ∧
    (after (unlocked [] [wr 0x002C 0x1FF])).consts.pprime = 0xB1 ∧ (State.resetOf ⟨.w64, 16⟩).ctrl.lock = false ∧
    (after { State.resetOf ⟨.w64, 16⟩ with script := [wr 0x002C 0xFFFFFFFF] }).consts.pprime = 0xFFFFFFFF00000000 := by
  decide
/-- ChainRegistersReadBack: CHAIN_CFG, and the first and last CHAIN_STEP register. -/
theorem wit_chain_registers : (unlocked []).ctrl.lock = false ∧
    respAfter { after (unlocked [] [wr 0x0020 0xFFFFFFFF]) with script := [rd 0x0020] } = some ⟨false, some 0xFFFFFFFF⟩ ∧
    respAfter { after (unlocked [] [wr 0x0400 0xFFFFFFFF]) with script := [rd 0x0400] } = some ⟨false, some 0x00FFFFFF⟩ ∧
    respAfter { after (unlocked [] [wr 0x07FC 0xFF020004]) with script := [rd 0x07FC] } = some ⟨false, some 0x00020004⟩ := by
  decide
/-- ChainRegistersReadBack: reads of the toy table (43_inversion.md R222) while LOCK = 1 and BUSY = 1. -/
theorem wit_chain_reads : (busyToy []).ctrl.lock = true ∧ (busyToy []).busy = true ∧
    respAfter (busyToy [] [rd 0x0020]) = some ⟨false, some 0x00020104⟩ ∧
    respAfter (busyToy [] [rd 0x0400]) = some ⟨false, some 0x00020004⟩ ∧
    respAfter (busyToy [] [rd 0x0404]) = some ⟨false, some 0x00000001⟩ := by decide
/-- LockFreezesConstants, BuildIsFixed, StepKeepsTheInvariant: steps of a locked state, a reset edge among them. -/
theorem wit_locked_steps : (toy []).ctrl.lock = true ∧ (∃ t, step (toy [] [wr 0x0010 0]) = .next t) ∧
    (∃ t, step (toy [] [.reset none]) = .next t) ∧ ∃ t, step (toy [48, 72, 120, 168]) = .next t :=
  ⟨rfl, ⟨_, rfl⟩, ⟨_, rfl⟩, ⟨_, rfl⟩⟩
/-- The result statements: a ready state that meets the invariant, and even registers. -/
theorem wit_results : (toy [48, 72, 120, 168]).Inv ∧ (toy [48, 72, 120, 168]).Ready ∧ (0 : Reg).val % 2 = 0 ∧
    (2 : Reg).val % 2 = 0 ∧ (30 : Reg).val % 2 = 0 := ⟨toy_inv, toy_ready, by decide, by decide, by decide⟩
/-- MontRedIsWordSerial, MontRedReduces, MontRedOfSingleWidth: the largest T of each range, and the two cases of item 3. -/
theorem wit_montred : Headroom Config.build toyConstants ∧ Consistent Config.build toyConstants ∧
    431 * 65536 - 1 < toyConstants.p * Config.build.radix ∧ 65535 < Config.build.radix ∧ (431 ≠ 0 ∧ toyConstants.p ∣ 431) ∧
    ¬ (0 ≠ 0 ∧ toyConstants.p ∣ 0) := ⟨toy_headroom, toy_consistent, by decide, by decide, by decide, by decide⟩
/-- CorrAndCommutativity: the largest x of each range. -/
theorem wit_corr : 1292 < 3 * toyConstants.p ∧ 861 < 2 * toyConstants.p := by decide
/-- RelaxedRangeIsClosed, MontgomeryDomainLaws, Gfp2MultiplyIsCorrect: the largest operands. -/
theorem wit_relaxed : Headroom Config.build toyConstants ∧ Consistent Config.build toyConstants ∧
    861 < 2 * toyConstants.p ∧ 430 < toyConstants.p := ⟨toy_headroom, toy_consistent, by decide, by decide⟩
/-- ChainIsTheInterpreter, InvertingZero: a valid table, with a step that multiplies; and one without. -/
theorem wit_chain : toyChain.valid = true ∧ (0 : Fin 256).val < toyChain.nsteps.toNat ∧ 0 + 1 < toyChain.npow.toNat ∧
    (chainCfgWrite 0x00000001 toyChain).valid = true := by decide
/-- ChainComputesThePower: 48 is the form of 2. -/
theorem wit_power : Headroom Config.build toyConstants ∧ Consistent Config.build toyConstants ∧ toyChain.valid = true ∧
    48 < 2 * toyConstants.p ∧ 48 ≡ 2 * Config.build.radix [MOD toyConstants.p] :=
  ⟨toy_headroom, toy_consistent, by decide, by decide, by decide⟩
/-- FinvInverts, F2invInverts: the toy chain's exponent is (p - 3)/4 with p prime; the largest a, and a pair with one
component a multiple of p. -/
theorem wit_inverts : Headroom Config.build toyConstants ∧ Consistent Config.build toyConstants ∧ toyConstants.p.Prime ∧
    toyChain.valid = true ∧ toyChain.exponent = (toyConstants.p - 3) / 4 ∧ 861 < 2 * toyConstants.p ∧
    ¬ toyConstants.p ∣ 861 ∧ ¬ (toyConstants.p ∣ 431 ∧ toyConstants.p ∣ 24) :=
  ⟨toy_headroom, toy_consistent, toy_prime, by decide, by decide, by decide, by decide, by decide⟩
/-- ResetMeetsTheInvariant: legal builds, the smallest and the widest. -/
theorem wit_builds : (Build.mk .w8 1).wf = true ∧ (Build.mk .w8 128).wf = true ∧ (Build.mk .w64 16).wf = true ∧
    (Build.mk .w64 17).wf = false ∧ (Build.mk .w8 0).wf = false := by decide
/-- ResultDependsOnlyOnSources: two ready states that differ in DONE, in ERR and in a register that is no source. -/
theorem wit_sources : (toy [48, 72, 120, 168]).Ready ∧ (errToy [48, 72, 5]).Ready ∧ (Instr.fmul 3 0 1).wf = true ∧
    (∀ r ∈ (profile (.fmul 3 0 1)).sources, (toy [48, 72, 120, 168]).reg r = (errToy [48, 72, 5]).reg r) ∧
    (toy [48, 72, 120, 168]).reg 2 ≠ (errToy [48, 72, 5]).reg 2 := by
  unfold State.Ready
  decide
/-- ResultDependsOnlyOnSources: an inversion command, whose table is valid. -/
theorem wit_sources_inversion : (Instr.f2inv 8 0).wf = true ∧ (profile (.f2inv 8 0)).chain = true ∧
    (toy [48, 72]).chain.valid = true := by decide
/-- AccessesCannotDisturbACommand: two accesses, a read of STATUS and a write to a source register, while BUSY. -/
theorem wit_disturb : ∃ u, (busyToy [48, 72] [rd 0x0014, wr 0x1000 5]).busy = true ∧
    (busyToy [48, 72] [rd 0x0014, wr 0x1000 5]).script = [readAt 0x0014, writeAt 0x1000 5].map Event.access ∧
    Host.Core.run Sys2Proof.core 2 (busyToy [48, 72] [rd 0x0014, wr 0x1000 5]) = .next u := ⟨_, rfl, rfl, rfl⟩
/-- ControlIndependentOfOperands: two states that differ in F, of which one step accepts a command. -/
theorem wit_control : SameControl (toy [48, 72] [cmd 0x20611000]) (toy [1, 2, 3] [cmd 0x20611000]) ∧
    (toy [48, 72]).reg 0 ≠ (toy [1, 2, 3]).reg 0 ∧ ∃ t, step (toy [48, 72] [cmd 0x20611000]) = .next t :=
  ⟨⟨rfl, rfl, rfl, rfl, rfl, rfl, rfl, rfl, rfl, rfl, rfl⟩, by decide, ⟨_, rfl⟩⟩
/-- UnwrittenValuesStayInvisible: F1, F2, P and PPRIME written, F5 and R2 not; `fmul f3, f1, f2` reads only what is. -/
def written : Written := ⟨[(1, 0), (2, 0)], [0], [], [0], false, []⟩
/-- The toy state before `fmul f3, f1, f2`, with another value in F5, which nothing has written. -/
def otherToy : State := { toy [0, 48, 72, 0, 0, 9] [cmd 0x20611000] with consts := { toyConstants with r2 := 7 } }
theorem wit_unwritten_agree : AgreeOn written (toy [0, 48, 72] [cmd 0x20611000]) otherToy where
  build := rfl
  ctrl := rfl
  status := rfl
  engine := rfl
  resp := rfl
  script := rfl
  fresh := rfl
  f := by
    intro r k h _
    simp only [written, List.mem_cons, Prod.mk.injEq, List.not_mem_nil, or_false] at h
    rcases h with ⟨rfl, rfl⟩ | ⟨rfl, rfl⟩ <;> decide
  p := by intro k h _; rfl
  r2 := by intro k h; cases h
  pprime := by intro k h; rfl
  chainCfg := by intro h; cases h
  steps := by intro i h; cases h
theorem wit_unwritten_safe : written.safe (toy [0, 48, 72] [cmd 0x20611000]) = true ∧
    (toy [0, 48, 72] [cmd 0x20611000]).reg 5 ≠ otherToy.reg 5 ∧ ∃ t, step (toy [0, 48, 72] [cmd 0x20611000]) = .next t :=
  ⟨by decide, by decide, ⟨_, rfl⟩⟩
/-- UnwrittenValuesStayInvisible: both states meet the invariant. -/
theorem wit_unwritten_inv : (toy [0, 48, 72] [cmd 0x20611000]).Inv ∧ otherToy.Inv :=
  ⟨⟨by decide, by decide, by decide, by decide, by decide, by decide, by intro r h; cases h⟩,
    ⟨by decide, by decide, by decide, by decide, by decide, by decide, by intro r h; cases h⟩⟩
/-- The monitor (R55): a read of an unwritten register is not safe, and neither is FTOM without R2. -/
theorem test_written_monitor : written.safe (toy [] [rd 0x1280]) = false ∧ written.safe (toy [] [cmd 0x28210000]) = false ∧
    written.safe (toy [] [cmd 0x60A10000]) = false ∧ Written.nothing.safe (unlocked [] [cmd 0x20611000]) = true := by decide

end Sys2Proof.Tests
end

section
/-! The build parameters through a step (00_scope.md R7, R8, entry 1): each thing a step can do keeps them. -/

namespace Sys2Proof.Machine

@[simp] theorem engineTurn_build (s : State) : (engineTurn s).build = s.build := by
  cases h : s.engine with
  | none => rw [engineTurn_idle h]
  | some r => rw [engineTurn_busy h, complete_build]

@[simp] theorem resetEdge_build (a : Option Access) (s : State) : (resetEdge a s).build = s.build := by
  cases a with
  | none => rfl
  | some a => rfl

theorem exec_build {i : Instr} {s t : State} (h : exec i s = .next t) : t.build = s.build := by
  rcases exec_cases h with ⟨c, rfl⟩ | ⟨r, rfl, -⟩
  · exact reject_build c s
  · exact accept_build r s

theorem AccessCase.build {a : Access} {s t : State} (h : AccessCase a s t) : t.build = s.build := by
  cases h with
  | slverr _ e => rw [e, respond_build]
  | read _ _ e => rw [e, respond_build]
  | write _ _ _ e => rw [e, respond_build, writeTarget_build]
  | rejected _ _ _ c _ e => rw [e, reject_build, respond_build]
  | command _ _ _ i _ e => rw [exec_build e, respond_build]

theorem step_build {s t : State} (h : step s = .next t) : t.build = s.build := by
  cases step_cases h with
  | engine rest _ e => rw [e, engineTurn_build, takeEvent_build]
  | reset a rest _ e => rw [e, resetEdge_build, takeEvent_build]
  | access a rest _ e => rw [e.build, takeEvent_build]

/-- Settles O32: the engine's turn, a reset edge and an access each keep the build. -/
theorem buildIsFixed : Obligations.BuildIsFixed := fun _ _ h => step_build h

end Sys2Proof.Machine
end

section
/-! The invariant of the state (10_state.md R31, R43, R44) through everything a step can do. -/

namespace Sys2Proof.Machine

/-- Settles O54: after reset every register holds 0, no error is recorded and the engine is idle. -/
theorem resetMeetsTheInvariant : Obligations.ResetMeetsTheInvariant := fun b hb =>
  { build := hb
    f := fun r => by simp [State.reg, State.resetOf, radix_pos]
    p := radix_pos b
    r2 := radix_pos b
    pprime := Nat.two_pow_pos _
    errcode := rfl
    inFlight := fun r h => nomatch h }

/-- The invariant reads neither the response, nor the script, nor the free-value counter. -/
theorem State.Inv.bookkeeping {s : State} (h : s.Inv) (resp : Option Response) (script : List Event) (fresh : Nat) :
    State.Inv { s with resp := resp, script := script, fresh := fresh } :=
  ⟨h.build, h.f, h.p, h.r2, h.pprime, h.errcode, h.inFlight⟩

theorem State.Inv.takeEvent {s : State} (h : s.Inv) (rest : List Event) : (takeEvent rest s).Inv :=
  h.bookkeeping none rest s.fresh

theorem State.Inv.respond {s : State} (h : s.Inv) (r : Response) : (s.respond r).Inv :=
  h.bookkeeping (some r) s.script s.fresh

theorem State.Inv.reject {s : State} (h : s.Inv) (c : RejectCode) : (reject c s).Inv where
  build := by simpa using h.build
  f := by simpa using h.f
  p := by simpa using h.p
  r2 := by simpa using h.r2
  pprime := by simpa using h.pprime
  errcode := by
    rw [reject_errcode, reject_err]
    cases he : s.status.err with
    | true => simpa [he] using h.errcode
    | false => rfl
  inFlight := by simpa using h.inFlight

/-- An acceptance in a ready state of a result that fits. -/
theorem State.Inv.accept {s : State} (h : s.Inv) (hs : s.Ready) {r : Result} (hr : r.fits s.build) :
    (accept r s).Inv where
  build := h.build
  f := h.f
  p := h.p
  r2 := h.r2
  pprime := h.pprime
  errcode := h.errcode
  inFlight := fun r' hr' => by
    obtain rfl : r = r' := Option.some.inj hr'
    exact ⟨hs.2, rfl, hr⟩

/-- A command is rejected, or accepted in a ready state with a result that fits. -/
theorem State.Inv.exec {s t : State} (h : s.Inv) {i : Instr} (he : exec i s = .next t) : t.Inv := by
  rcases exec_cases he with ⟨c, rfl⟩ | ⟨r, rfl, hs, -, hf⟩
  · exact h.reject c
  · exact h.accept hs (hf h)

theorem State.Inv.complete {s : State} (h : s.Inv) {r : Result} (hr : r.fits s.build) : (complete r s).Inv where
  build := by simpa using h.build
  f := fun q => by
    rw [complete_reg, complete_build]
    rcases writeDests_reg_cases r.dests s q with e | ⟨d, hd, -, e⟩ <;> rw [e]
    · exact h.f q
    · exact hr d hd
  p := by simpa using h.p
  r2 := by simpa using h.r2
  pprime := by simpa using h.pprime
  errcode := by simpa using h.errcode
  inFlight := by simp

theorem State.Inv.engineTurn {s : State} (h : s.Inv) : (engineTurn s).Inv := by
  cases he : s.engine with
  | none => rwa [engineTurn_idle he]
  | some r =>
    rw [engineTurn_busy he]
    exact h.complete (h.inFlight r he).2.2

theorem State.Inv.resetEdge {s : State} (h : s.Inv) (a : Option Access) : (resetEdge a s).Inv := by
  have h0 := resetMeetsTheInvariant s.build h.build
  cases a with
  | none => exact h0.bookkeeping _ _ _
  | some a => exact h0.bookkeeping _ _ _

theorem State.Inv.setReg {s : State} (h : s.Inv) (r : Reg) {v : Nat} (hv : v < s.build.radix) : (s.setReg r v).Inv where
  build := h.build
  f := fun q => by
    rw [setReg_reg]
    split
    · exact hv
    · exact h.f q
  p := h.p
  r2 := h.r2
  pprime := h.pprime
  errcode := h.errcode
  inFlight := h.inFlight

section StatusWrite
/-! A STATUS write, bit by bit (10_state.md R41). -/

variable (v : Word) (st : Status)

theorem statusWrite_done : (statusWrite v st).done = if v.getLsbD 1 then false else st.done := by
  unfold statusWrite
  cases v.getLsbD 1 <;> simp

theorem statusWrite_err : (statusWrite v st).err = if v.getLsbD 2 then false else st.err := by
  unfold statusWrite
  cases v.getLsbD 2 <;> simp

theorem statusWrite_errcode : (statusWrite v st).errcode = if v.getLsbD 2 then none else st.errcode := by
  unfold statusWrite
  cases v.getLsbD 2 <;> rfl

end StatusWrite

/-- A STATUS write clears ERR and ERRCODE together (10_state.md R44). -/
theorem statusWrite_errcode_isSome (v : Word) {st : Status} (h : st.errcode.isSome = st.err) :
    (statusWrite v st).errcode.isSome = (statusWrite v st).err := by
  rw [statusWrite_errcode, statusWrite_err]
  split
  · rfl
  · exact h

/-- Every write stores a value cut to its register's width (20_memory.md R73, R74), keeps LOCK and never sets DONE. -/
theorem State.Inv.writeTarget {s : State} (h : s.Inv) (T : Target) (v : Word) : (writeTarget T v s).Inv := by
  cases T with
  | id => exact h
  | cfg0 => exact h
  | cfg1 => exact h
  | cmd => exact h
  | unmapped => exact h
  | ctrl =>
    refine ⟨h.build, h.f, h.p, h.r2, h.pprime, h.errcode, fun r hr => ?_⟩
    obtain ⟨hl, hd, hf⟩ := h.inFlight r hr
    exact ⟨writeTarget_lock .ctrl v s hl, hd, hf⟩
  | status =>
    refine ⟨h.build, h.f, h.p, h.r2, h.pprime, ?_, fun r hr => ?_⟩
    · exact statusWrite_errcode_isSome v h.errcode
    · obtain ⟨hl, hd, hf⟩ := h.inFlight r hr
      exact ⟨hl, (statusWrite_done v s.status).trans (by rw [hd, ite_self]), hf⟩
  | chainCfg => exact ⟨h.build, h.f, h.p, h.r2, h.pprime, h.errcode, h.inFlight⟩
  | chainStep i => exact ⟨h.build, h.f, h.p, h.r2, h.pprime, h.errcode, h.inFlight⟩
  | pprimeLo => exact ⟨h.build, h.f, h.p, h.r2, pprimeWrite_lt _ _ _ _, h.errcode, h.inFlight⟩
  | pprimeHi => exact ⟨h.build, h.f, h.p, h.r2, pprimeWrite_lt _ _ _ _, h.errcode, h.inFlight⟩
  | p k => exact ⟨h.build, h.f, slotWrite_lt _ _ _ h.p, h.r2, h.pprime, h.errcode, h.inFlight⟩
  | r2 k => exact ⟨h.build, h.f, h.p, slotWrite_lt _ _ _ h.r2, h.pprime, h.errcode, h.inFlight⟩
  | f r k => exact h.setReg r (slotWrite_lt _ _ _ (h.f r))

theorem AccessCase.inv {a : Access} {s t : State} (h : AccessCase a s t) (hs : s.Inv) : t.Inv := by
  cases h with
  | slverr _ e => rw [e]; exact hs.respond _
  | read _ _ e => rw [e]; exact hs.respond _
  | write _ _ _ e => rw [e]; exact (hs.writeTarget _ _).respond _
  | rejected _ _ _ c _ e => rw [e]; exact (hs.respond _).reject c
  | command _ _ _ i _ e => exact (hs.respond _).exec e

/-- Settles O55: the engine's turn, a reset edge and an access each keep the invariant. -/
theorem stepKeepsTheInvariant : Obligations.StepKeepsTheInvariant := by
  intro s t hs h
  cases step_cases h with
  | engine rest _ e => rw [e]; exact (hs.takeEvent rest).engineTurn
  | reset a rest _ e => rw [e]; exact (hs.takeEvent rest).resetEdge a
  | access a rest _ e => exact e.inv (hs.takeEvent rest)

end Sys2Proof.Machine
end

section
/-! What a command's result is a function of (10_state.md R39, R50): its sources, and of the constants and the chain table
what its rule reads (`profile`). -/

namespace Sys2Proof.Machine

/-- Two states that a command with this profile cannot tell apart: the same build, the same source operands, and the same
P, PPRIME, R2 and chain fields as far as the profile reads them. -/
structure SameInputs (f : Profile) (s t : State) : Prop where
  build : s.build = t.build
  reg : ∀ r ∈ f.sources, s.reg r = t.reg r
  p : f.p = true → s.consts.p = t.consts.p
  pprime : f.pprime = true → s.consts.pprime = t.consts.pprime
  r2 : f.r2 = true → s.consts.r2 = t.consts.r2
  npow : f.chain = true → s.chain.npow = t.chain.npow
  j0 : f.chain = true → s.chain.j0 = t.chain.j0
  steps : f.chain = true →
    s.chain.steps.toList.take s.chain.nsteps.toNat = t.chain.steps.toList.take t.chain.nsteps.toNat

theorem pair_congr {s t : State} {r : Reg} (h : ∀ q ∈ pairOf r, s.reg q = t.reg q) : s.pair r = t.pair r :=
  Prod.ext (h r (by simp [pairOf])) (h (pairMate r) (by simp [pairOf]))

section Operands
variable {f : Profile} {s t : State} (h : SameInputs f s t) {a c : Reg}
include h

theorem SameInputs.oneReg (e : f.sources = [a]) : s.reg a = t.reg a := h.reg a (by simp [e])

theorem SameInputs.twoRegs (e : f.sources = [a, c]) : s.reg a = t.reg a ∧ s.reg c = t.reg c :=
  ⟨h.reg a (by simp [e]), h.reg c (by simp [e])⟩

theorem SameInputs.onePair (e : f.sources = pairOf a) : s.pair a = t.pair a :=
  pair_congr fun q hq => h.reg q (by rwa [e])

theorem SameInputs.twoPairs (e : f.sources = pairOf a ++ pairOf c) : s.pair a = t.pair a ∧ s.pair c = t.pair c :=
  ⟨pair_congr fun q hq => h.reg q (by rw [e]; exact List.mem_append_left _ hq),
    pair_congr fun q hq => h.reg q (by rw [e]; exact List.mem_append_right _ hq)⟩

/-- The operands of MPADD and MPSUB (40_multiprecision.md R141). -/
theorem SameInputs.mpOperands {d : Bool} (e : f.sources = bif d then pairOf a ++ pairOf c else [a, c]) :
    s.mpOperand d a = t.mpOperand d a ∧ s.mpOperand d c = t.mpOperand d c := by
  cases d with
  | false => exact h.twoRegs e
  | true =>
    obtain ⟨ha, hc⟩ := h.twoPairs e
    have double : ∀ r, s.pair r = t.pair r → s.double r = t.double r := by
      intro r hr
      obtain ⟨h0, h1⟩ := Prod.ext_iff.1 hr
      change s.reg r = t.reg r at h0
      change s.reg (pairMate r) = t.reg (pairMate r) at h1
      rw [State.double, State.double, h0, h1, h.build]
    exact ⟨double a ha, double c hc⟩

end Operands

section Gfp2
variable {b : Build} {k k' : Constants} (hp : k.p = k'.p) (hpp : k.pprime = k'.pprime)
include hp hpp

theorem fp2Mul_congr (x y : Nat × Nat) : fp2Mul b k x y = fp2Mul b k' x y := by
  simp only [fp2Mul, montMul_congr hp hpp, modAdd_congr hp, modSub_congr hp]

theorem fp2Sqr_congr (x : Nat × Nat) : fp2Sqr b k x = fp2Sqr b k' x := by
  simp only [fp2Sqr, montMul_congr hp hpp, modAdd_congr hp, modSub_congr hp]

theorem fp2Inv_congr {t t' : ChainTable} (hn : t.npow = t'.npow) (hj : t.j0 = t'.j0)
    (hs : t.steps.toList.take t.nsteps.toNat = t'.steps.toList.take t'.nsteps.toNat) (x : Nat × Nat) :
    fp2Inv b k t x = fp2Inv b k' t' x := by
  simp only [fp2Inv, montMul_congr hp hpp, modAdd_congr hp, modNeg_congr hp, inv_congr hp hpp hn hj hs]

end Gfp2

/-- Issuing equal results in two states is issuing one result in both. -/
theorem exec_issues_same_of_eq {i : Instr} {s t : State} {r r' : Result}
    (hs : exec i s = issue s i.pairFields (profile i).chain r)
    (ht : exec i t = issue t i.pairFields (profile i).chain r') (e : r = r') :
    ∃ r, exec i s = issue s i.pairFields (profile i).chain r ∧ exec i t = issue t i.pairFields (profile i).chain r :=
  ⟨r, hs, by rw [ht, e]⟩

/-- In two states with the same inputs a command issues the same result. -/
theorem exec_issues_same {i : Instr} {s t : State} (h : SameInputs (profile i) s t) :
    ∃ r, exec i s = issue s i.pairFields (profile i).chain r ∧ exec i t = issue t i.pairFields (profile i).chain r := by
  have hb := h.build
  cases i with
  | mpadd d rd rs1 rs2 =>
    obtain ⟨e1, e2⟩ := h.mpOperands rfl
    exact exec_issues_same_of_eq rfl rfl (by rw [hb, e1, e2])
  | mpsub d rd rs1 rs2 =>
    obtain ⟨e1, e2⟩ := h.mpOperands rfl
    exact exec_issues_same_of_eq rfl rfl (by rw [hb, e1, e2])
  | mpshl1 rd rs1 => exact exec_issues_same_of_eq rfl rfl (by rw [hb, h.oneReg rfl])
  | mpshr1 rd rs1 => exact exec_issues_same_of_eq rfl rfl (by rw [h.oneReg rfl])
  | fmul rd rs1 rs2 =>
    obtain ⟨e1, e2⟩ := h.twoRegs rfl
    exact exec_issues_same_of_eq rfl rfl (by rw [hb, e1, e2, montMul_congr (h.p rfl) (h.pprime rfl)])
  | fsqr rd rs1 =>
    exact exec_issues_same_of_eq rfl rfl (by rw [hb, h.oneReg rfl, montMul_congr (h.p rfl) (h.pprime rfl)])
  | ftom rd rs1 =>
    exact exec_issues_same_of_eq rfl rfl
      (by rw [hb, h.oneReg rfl, h.r2 rfl, montMul_congr (h.p rfl) (h.pprime rfl)])
  | ffromm rd rs1 =>
    exact exec_issues_same_of_eq rfl rfl
      (by rw [hb, h.oneReg rfl, corr_congr (h.p rfl), montRed_congr (h.p rfl) (h.pprime rfl)])
  | fcorr rd rs1 => exact exec_issues_same_of_eq rfl rfl (by rw [h.oneReg rfl, corr_congr (h.p rfl)])
  | fadd rd rs1 rs2 =>
    obtain ⟨e1, e2⟩ := h.twoRegs rfl
    exact exec_issues_same_of_eq rfl rfl (by rw [hb, e1, e2, modAdd_congr (h.p rfl)])
  | fsub rd rs1 rs2 =>
    obtain ⟨e1, e2⟩ := h.twoRegs rfl
    exact exec_issues_same_of_eq rfl rfl (by rw [hb, e1, e2, modSub_congr (h.p rfl)])
  | fneg rd rs1 => exact exec_issues_same_of_eq rfl rfl (by rw [hb, h.oneReg rfl, modNeg_congr (h.p rfl)])
  | fhalf rd rs1 => exact exec_issues_same_of_eq rfl rfl (by rw [hb, h.oneReg rfl, half_congr (h.p rfl)])
  | finvc rd rs1 =>
    exact exec_issues_same_of_eq rfl rfl
      (by rw [hb, h.oneReg rfl, chain_congr (h.p rfl) (h.pprime rfl) (h.npow rfl) (h.j0 rfl) (h.steps rfl)])
  | finv rd rs1 =>
    exact exec_issues_same_of_eq rfl rfl
      (by rw [hb, h.oneReg rfl, inv_congr (h.p rfl) (h.pprime rfl) (h.npow rfl) (h.j0 rfl) (h.steps rfl)])
  | f2add rd rs1 rs2 =>
    obtain ⟨e1, e2⟩ := h.twoPairs rfl
    exact exec_issues_same_of_eq rfl rfl (by simp only [onPairs, hb, e1, e2, modAdd_congr (h.p rfl)])
  | f2sub rd rs1 rs2 =>
    obtain ⟨e1, e2⟩ := h.twoPairs rfl
    exact exec_issues_same_of_eq rfl rfl (by simp only [onPairs, hb, e1, e2, modSub_congr (h.p rfl)])
  | f2neg rd rs1 =>
    exact exec_issues_same_of_eq rfl rfl (by simp only [onPair, hb, h.onePair rfl, modNeg_congr (h.p rfl)])
  | f2half rd rs1 =>
    exact exec_issues_same_of_eq rfl rfl (by simp only [onPair, hb, h.onePair rfl, half_congr (h.p rfl)])
  | f2corr rd rs1 =>
    exact exec_issues_same_of_eq rfl rfl (by simp only [onPair, h.onePair rfl, corr_congr (h.p rfl)])
  | f2mul rd rs1 rs2 =>
    obtain ⟨e1, e2⟩ := h.twoPairs rfl
    exact exec_issues_same_of_eq rfl rfl (by rw [hb, e1, e2, fp2Mul_congr (h.p rfl) (h.pprime rfl)])
  | f2sqr rd rs1 =>
    exact exec_issues_same_of_eq rfl rfl (by rw [hb, h.onePair rfl, fp2Sqr_congr (h.p rfl) (h.pprime rfl)])
  | f2inv rd rs1 =>
    exact exec_issues_same_of_eq rfl rfl
      (by rw [hb, h.onePair rfl, fp2Inv_congr (h.p rfl) (h.pprime rfl) (h.npow rfl) (h.j0 rfl) (h.steps rfl)])
  | f2tom rd rs1 =>
    exact exec_issues_same_of_eq rfl rfl
      (by simp only [onPair, hb, h.onePair rfl, h.r2 rfl, montMul_congr (h.p rfl) (h.pprime rfl)])
  | f2fromm rd rs1 =>
    exact exec_issues_same_of_eq rfl rfl
      (by simp only [onPair, hb, h.onePair rfl, corr_congr (h.p rfl), montRed_congr (h.p rfl) (h.pprime rfl)])

/-- A well-formed command names no pair by an odd register (30_encoding.md R112). -/
theorem pairFields_any_oddReg {i : Instr} (h : i.wf = true) : i.pairFields.any oddReg = false := by
  rw [List.any_eq_false]
  intro r hr
  have he : r.val % 2 = 0 := by simpa [Reg.isEven] using List.all_eq_true.1 h r hr
  simp [oddReg, he]

/-- Settles O56: both states issue the same result, and both accept it. -/
theorem resultDependsOnlyOnSources : Obligations.ResultDependsOnlyOnSources := by
  intro i s t hs ht hi hb hk hc hv hr
  have same : SameInputs (profile i) s t :=
    { build := hb
      reg := hr
      p := fun _ => by rw [hk]
      pprime := fun _ => by rw [hk]
      r2 := fun _ => by rw [hk]
      npow := fun _ => by rw [hc]
      j0 := fun _ => by rw [hc]
      steps := fun _ => by rw [hc] }
  obtain ⟨r, es, et⟩ := exec_issues_same same
  have hp := pairFields_any_oddReg hi
  exact ⟨r, es.trans (issue_accepts r hs hp hv), et.trans (issue_accepts r ht hp (hc ▸ hv))⟩

/-- A chain table is valid by NPOW, J0 and the NSTEPS first steps alone (10_state.md R39). -/
theorem valid_congr {t t' : ChainTable} (hn : t.npow = t'.npow) (hj : t.j0 = t'.j0) (hs : t.nsteps = t'.nsteps)
    (hl : t.steps.toList.take t.nsteps.toNat = t'.steps.toList.take t'.nsteps.toNat) : t.valid = t'.valid := by
  unfold ChainTable.valid
  rw [hl, hn, hj, hs]

/-- What holds of the first n steps of a table holds of its registers below n. -/
theorem forall_mem_take_steps (t : ChainTable) (n : Nat) (P : ChainStep → Prop) :
    (∀ x ∈ t.steps.toList.take n, P x) ↔ ∀ i : Fin 256, i.val < n → P t.steps[i.val] := by
  constructor
  · intro h i hi
    exact h _ (List.mem_take_iff_getElem.2 ⟨i.val, by rw [Vector.length_toList]; omega, Vector.getElem_toList _⟩)
  · intro h x hx
    obtain ⟨j, hj, rfl⟩ := List.mem_take_iff_getElem.1 hx
    have hj' : j < n ∧ j < 256 := by simpa using hj
    simpa using h ⟨j, hj'.2⟩ hj'.1

/-- R39's conditions on a table. -/
theorem valid_iff (t : ChainTable) : t.valid = true ↔
    (1 ≤ t.npow.toNat ∧ t.npow.toNat ≤ 16) ∧ t.j0.toNat < t.npow.toNat ∧ t.nsteps.toNat ≤ 256 ∧
      ∀ i : Fin 256, i.val < t.nsteps.toNat →
        t.steps[i.val].j.toNat < t.npow.toNat ∨ t.steps[i.val].j = 0xFF := by
  rw [← forall_mem_take_steps t _ fun x => x.j.toNat < t.npow.toNat ∨ x.j = 0xFF]
  simp only [ChainTable.valid, Bool.and_eq_true, decide_eq_true_eq, List.all_eq_true, Bool.or_eq_true, beq_iff_eq,
    and_assoc]
  rfl

/-- A ready CORE rejects an inversion command when the chain table is not valid (60_exceptions.md R265). -/
theorem rejects_badChain {i : Instr} {s : State} (hs : s.Ready) (hi : i.pairFields.any oddReg = false)
    (hu : (profile i).chain = true) (hv : s.chain.valid = false) : Rejects i s .badChain := by
  obtain ⟨r, e, -⟩ := exec_issues i s
  rw [hu] at e
  exact e.trans (issue_badChain r hs hi hv)

/-- Settles O10: R39's conditions are those `valid` tests, and an inversion command that reaches its last check fails it. -/
theorem chainTableValidity : Obligations.ChainTableValidity := by
  refine ⟨valid_iff, fun s rd rs1 hs hv => ⟨?_, ?_, fun h0 h1 => ?_⟩⟩
  · exact rejects_badChain hs rfl rfl hv
  · exact rejects_badChain hs rfl rfl hv
  · exact rejects_badChain hs (by simp [Instr.pairFields, oddReg, h0, h1]) rfl hv

end Sys2Proof.Machine
end

section
/-! Storage that nothing has written since reset (10_state.md R55, entry 2): each thing a step can do takes two states that
agree on the written storage to two such states, with the same response. -/

namespace Sys2Proof.Machine

/-! ### Limbs of written values -/

/-- A limb of a value just written is the same in two values that agreed on the limb, if it is another one. -/
theorem limb_slotWrite_agree {b : Build} {j k : Nat} {x y : Nat} (hx : x < b.radix) (hy : y < b.radix) (v : Word)
    (hj : j < b.limbs) (h : j ≠ k → limb j x = limb j y) :
    limb j (slotWrite b k v x) = limb j (slotWrite b k v y) := by
  by_cases e : j = k
  · subst e
    rw [limb_slotWrite_self hj, limb_slotWrite_self hj]
  · rw [limb_slotWrite_ne e v hx, limb_slotWrite_ne e v hy, h e]

/-- A limb of PPRIME just written is the same in two values that agreed on the limb, if it is another one. -/
theorem limb_pprimeWrite_agree {b : Build} {j k : Nat} {x y : Nat} (v : Word) (h : j ≠ k → limb j x = limb j y) :
    limb j (pprimeWrite b k v x) = limb j (pprimeWrite b k v y) := by
  apply Nat.eq_of_testBit_eq
  intro m
  simp only [testBit_limb, pprimeWrite, Nat.testBit_mod_two_pow, testBit_setLimb]
  by_cases hm : m < 32
  · have hd : (32 * j + m) / 32 = j := by omega
    rw [hd]
    by_cases e : j = k
    · rw [if_pos e, if_pos e]
    · have hb := congrArg (fun z => z.testBit m) (h e)
      simp only [testBit_limb, hm, decide_true, Bool.true_and] at hb
      rw [if_neg e, if_neg e, hb]
  · simp [hm]

theorem slotRead_agree {b : Build} {k : Nat} {x y : Nat} (hx : x < b.radix) (hy : y < b.radix)
    (h : k < b.limbs → limb k x = limb k y) : slotRead b k x = slotRead b k y := by
  unfold slotRead
  split
  · rename_i hk
    rw [Nat.mod_eq_of_lt hx, Nat.mod_eq_of_lt hy, h hk]
  · rfl

theorem pprimeRead_agree {b : Build} {k : Nat} {x y : Nat} (hx : x < 2 ^ b.w) (hy : y < 2 ^ b.w)
    (h : limb k x = limb k y) : pprimeRead b k x = pprimeRead b k y := by
  unfold pprimeRead
  rw [Nat.mod_eq_of_lt hx, Nat.mod_eq_of_lt hy, h]

/-- For w <= 32, PPRIME has no high half (20_memory.md R74). -/
theorem limb_one_of_lt {n x : Nat} (hn : n ≤ 32) (hx : x < 2 ^ n) : limb 1 x = 0 := by
  unfold limb
  rw [Nat.div_eq_of_lt (hx.trans_le (Nat.pow_le_pow_right (by decide) hn)), Nat.zero_mod]

/-! ### The two states' control -/

/-- The checks look at BUSY, LOCK and, for an inversion command, the table's validity (60_exceptions.md R261). -/
theorem admission_congr {s t : State} {pairs : List Reg} {u : Bool} (hb : s.busy = t.busy)
    (hl : s.ctrl.lock = t.ctrl.lock) (hv : u = true → s.chain.valid = t.chain.valid) :
    admission s pairs u = admission t pairs u := by
  unfold admission
  rw [hb, hl]
  cases u with
  | false => rfl
  | true => rw [hv rfl]

theorem failing_congr {s t : State} (a : Access) (hb : s.busy = t.busy) (hl : s.ctrl.lock = t.ctrl.lock) :
    a.failing s = a.failing t := by
  unfold Access.failing refusedAt
  rw [hb, hl]

/-- Every state agrees with itself. -/
theorem AgreeOn.refl (w : Written) (s : State) : AgreeOn w s s :=
  ⟨rfl, rfl, rfl, rfl, rfl, rfl, rfl, fun _ _ _ _ => rfl, fun _ _ _ => rfl, fun _ _ _ => rfl, fun _ _ => rfl,
    fun _ => ⟨rfl, rfl, rfl⟩, fun _ _ => rfl⟩

/-- A destination's new value does not depend on the state written to. -/
theorem writeDests_reg_congr (ds : List (Reg × Nat)) {s t : State} {q : Reg}
    (h : (∀ d ∈ ds, d.1 ≠ q) → s.reg q = t.reg q) : (writeDests ds s).reg q = (writeDests ds t).reg q := by
  induction ds generalizing s t with
  | nil => exact h (by simp)
  | cons d ds ih =>
    rw [writeDests_cons, writeDests_cons]
    refine ih fun hn => ?_
    by_cases e : q = d.1
    · rw [e, setReg_reg_self, setReg_reg_self]
    · rw [setReg_reg_ne _ _ _ e, setReg_reg_ne _ _ _ e]
      exact h (List.forall_mem_cons.2 ⟨Ne.symm e, hn⟩)

section Agree
variable {w : Written} {s t : State} (h : AgreeOn w s t)
include h

theorem AgreeOn.busy : s.busy = t.busy := by rw [State.busy, h.engine, State.busy]

theorem AgreeOn.takeEvent (rest : List Event) : AgreeOn w (takeEvent rest s) (takeEvent rest t) :=
  { h with resp := rfl, script := rfl }

theorem AgreeOn.respond (r : Response) : AgreeOn w (s.respond r) (t.respond r) := { h with resp := rfl }

theorem AgreeOn.accept (r : Result) : AgreeOn w (accept r s) (accept r t) :=
  { h with
    engine := rfl
    status := by rw [Machine.accept, Machine.accept, h.status] }

theorem AgreeOn.reject (c : RejectCode) : AgreeOn w (reject c s) (reject c t) := by
  unfold Machine.reject
  rw [← h.status]
  split
  · exact h
  · exact { h with status := rfl }


/-! ### Commands -/

/-- A register all of whose limbs are written is the same in both states. -/
theorem AgreeOn.reg_eq (hs : s.Inv) (ht : t.Inv) {r : Reg} (hr : w.hasReg s.build r = true) : s.reg r = t.reg r := by
  refine eq_of_limbs (hs.f r) (h.build ▸ ht.f r) fun k hk => h.f r k ?_ hk
  simpa using List.all_eq_true.1 hr k (List.mem_range.2 hk)

theorem AgreeOn.p_eq (hs : s.Inv) (ht : t.Inv) (hp : w.hasP s.build = true) : s.consts.p = t.consts.p := by
  refine eq_of_limbs hs.p (h.build ▸ ht.p) fun k hk => h.p k ?_ hk
  simpa using List.all_eq_true.1 hp k (List.mem_range.2 hk)

theorem AgreeOn.r2_eq (hs : s.Inv) (ht : t.Inv) (hr : w.hasR2 s.build = true) : s.consts.r2 = t.consts.r2 := by
  refine eq_of_limbs hs.r2 (h.build ▸ ht.r2) fun k hk => h.r2 k ?_ hk
  simpa using List.all_eq_true.1 hr k (List.mem_range.2 hk)

/-- PPRIME is an element of the build with one word of its width. -/
theorem AgreeOn.pprime_eq (hs : s.Inv) (ht : t.Inv) (hp : w.hasPprime s.build = true) :
    s.consts.pprime = t.consts.pprime := by
  let b : Build := ⟨s.build.wordBits, 1⟩
  have radix : b.radix = 2 ^ s.build.w := by rw [radix_eq, Nat.mul_one]; rfl
  have limbs : b.limbs = (s.build.w + 31) / 32 := by rw [Build.limbs, Build.elemBits, Nat.mul_one]; rfl
  refine eq_of_limbs (b := b) (radix ▸ hs.pprime) (radix ▸ h.build ▸ ht.pprime) fun k hk => h.pprime k ?_
  simpa using List.all_eq_true.1 hp k (List.mem_range.2 (limbs ▸ hk))

/-- A written chain table is the same in both states, as far as an inversion command reads it. -/
theorem AgreeOn.chain_eq (hc : w.hasChain s.chain = true) :
    s.chain.npow = t.chain.npow ∧ s.chain.j0 = t.chain.j0 ∧ s.chain.nsteps = t.chain.nsteps ∧
      s.chain.steps.toList.take s.chain.nsteps.toNat = t.chain.steps.toList.take t.chain.nsteps.toNat := by
  obtain ⟨hcfg, hsteps⟩ := Bool.and_eq_true_iff.1 hc
  obtain ⟨hn, hj, hl⟩ := h.chainCfg hcfg
  refine ⟨hn, hj, hl, ?_⟩
  rw [← hl]
  refine List.ext_getElem (by simp) fun i hi _ => ?_
  obtain ⟨hi1, hi2⟩ : i < s.chain.nsteps.toNat ∧ i < 256 := by simpa using hi
  have hw : (⟨i, hi2⟩ : Fin 256) ∈ w.steps := by
    have := List.all_eq_true.1 hsteps ⟨i, hi2⟩ (List.mem_finRange _)
    simpa [Nat.not_le.2 hi1] using this
  simpa using h.steps ⟨i, hi2⟩ hw

/-- A command whose sources and table are written has the same inputs in both states. -/
theorem AgreeOn.sameInputs (hs : s.Inv) (ht : t.Inv) {i : Instr}
    (hc : (profile i).chain = true → w.hasChain s.chain = true) (hw : w.covers s i = true) :
    SameInputs (profile i) s t := by
  simp only [Written.covers, Bool.and_eq_true, Bool.or_eq_true, Bool.not_eq_true', List.all_eq_true] at hw
  obtain ⟨⟨⟨hreg, hp⟩, hpp⟩, hr2⟩ := hw
  exact
    { build := h.build
      reg := fun r hr => h.reg_eq hs ht (hreg r hr)
      p := fun e => h.p_eq hs ht (by simpa [e] using hp)
      pprime := fun e => h.pprime_eq hs ht (by simpa [e] using hpp)
      r2 := fun e => h.r2_eq hs ht (by simpa [e] using hr2)
      npow := fun e => (h.chain_eq (hc e)).1
      j0 := fun e => (h.chain_eq (hc e)).2.1
      steps := fun e => (h.chain_eq (hc e)).2.2.2 }

/-- A command that reads nothing unwritten is rejected in both states with one code, or accepted with one result. -/
theorem AgreeOn.exec (hs : s.Inv) (ht : t.Inv) {i : Instr} {s' : State}
    (hc : (profile i).chain = true → w.hasChain s.chain = true)
    (hw : ((profile i).chain = true ∧ s.chain.valid = false) ∨ w.covers s i = true) (e : exec i s = .next s') :
    ∃ t', exec i t = .next t' ∧ AgreeOn w s' t' := by
  have valid : (profile i).chain = true → s.chain.valid = t.chain.valid := fun hu => by
    obtain ⟨hn, hj, hl, hsteps⟩ := h.chain_eq (hc hu)
    exact valid_congr hn hj hl hsteps
  have adm := admission_congr (pairs := i.pairFields) h.busy (congrArg Ctrl.lock h.ctrl) valid
  cases ha : admission s i.pairFields (profile i).chain with
  | some c =>
    obtain ⟨r, er, -⟩ := exec_issues i s
    obtain ⟨r', er', -⟩ := exec_issues i t
    rw [er, issue, ha] at e
    cases e
    exact ⟨Machine.reject c t, by rw [er', issue, ← adm, ha], h.reject c⟩
  | none =>
    obtain ⟨-, -, hv⟩ := admission_eq_none.1 ha
    have covers : w.covers s i = true := hw.resolve_left fun ⟨hu, hf⟩ => by simp [hv hu] at hf
    obtain ⟨r, er, er'⟩ := exec_issues_same (h.sameInputs hs ht hc covers)
    rw [er, issue, ha] at e
    cases e
    exact ⟨Machine.accept r t, by rw [er', issue, ← adm, ha], h.accept r⟩

/-! ### The engine's turn and reset -/

/-- A completion writes the same values to the same registers. -/
theorem AgreeOn.complete (r : Result) :
    AgreeOn { w with f := r.dests.flatMap (fun d => (List.range s.build.limbs).map (fun k => (d.1, k))) ++ w.f }
      (complete r s) (complete r t) where
  build := by simpa using h.build
  ctrl := by simpa using h.ctrl
  status := by rw [complete_eq, complete_eq, h.status]
  engine := by simp
  resp := by simpa using h.resp
  script := by simpa using h.script
  fresh := by simpa using h.fresh
  f := fun q k hk hl => by
    rw [complete_build] at hl
    rw [complete_reg, complete_reg]
    by_cases hq : ∀ d ∈ r.dests, d.1 ≠ q
    · rw [writeDests_reg_of_not_mem _ _ hq, writeDests_reg_of_not_mem _ _ hq]
      refine h.f q k ((List.mem_append.1 hk).resolve_left fun hm => ?_) hl
      obtain ⟨d, hd, hm⟩ := List.mem_flatMap.1 hm
      obtain ⟨j, -, e⟩ := List.mem_map.1 hm
      exact hq d hd (congrArg Prod.fst e)
    · rw [writeDests_reg_congr r.dests (s := s) (t := t) fun hn => absurd hn hq]
  p := by simpa using h.p
  r2 := by simpa using h.r2
  pprime := by simpa using h.pprime
  chainCfg := by simpa using h.chainCfg
  steps := by simpa using h.steps

theorem AgreeOn.engineTurn : AgreeOn (w.afterEngine s) (engineTurn s) (engineTurn t) := by
  unfold Written.afterEngine
  cases he : s.engine with
  | none =>
    rw [engineTurn_idle he, engineTurn_idle (h.engine ▸ he)]
    exact h
  | some r =>
    rw [engineTurn_busy he, engineTurn_busy (h.engine ▸ he)]
    exact h.complete r

/-- A reset edge leaves only what the two states already share: the build, the script and the free values' number. -/
theorem AgreeOn.resetEdge (a : Option Access) : AgreeOn .nothing (resetEdge a s) (resetEdge a t) := by
  have reset (u : State) : Machine.resetEdge a u = { State.resetOf u.build with
      script := u.script
      resp := a.bind (resetResponse · u.fresh)
      fresh := u.fresh + if a.isSome then 1 else 0 } := by cases a <;> rfl
  rw [reset, reset, h.build, h.script, h.fresh]
  exact AgreeOn.refl _ _

/-! ### Accesses -/

/-- A read that the monitor allows shows the same data. -/
theorem AgreeOn.readData (hs : s.Inv) (ht : t.Inv) {a : Access} (hf : a.failing s = false) (hr : a.write = false)
    (hw : w.allows s a = true) : readData (targetOf a.addr) s = readData (targetOf a.addr) t := by
  unfold Written.allows at hw
  rw [hf, hr] at hw
  have hb := h.build
  cases hT : targetOf a.addr with
  | id => rfl
  | cfg0 => exact congrArg cfg0Word hb
  | cfg1 => rfl
  | ctrl => exact congrArg ctrlWord h.ctrl
  | status => simp only [Machine.readData, State.statusWord, h.busy, h.status]
  | cmd => rfl
  | unmapped => rfl
  | chainCfg =>
    obtain ⟨hn, hj, hl⟩ := h.chainCfg (by simpa [hT] using hw)
    simp only [Machine.readData, chainCfgWord, hn, hj, hl]
  | chainStep i => exact congrArg chainStepWord (h.steps i (by simpa [hT] using hw))
  | pprimeLo =>
    have := h.pprime 0 (by simpa [hT] using hw)
    simp only [Machine.readData, ← hb]
    exact pprimeRead_agree hs.pprime (hb ▸ ht.pprime) this
  | pprimeHi =>
    simp only [Machine.readData, ← hb]
    refine pprimeRead_agree hs.pprime (hb ▸ ht.pprime) ?_
    have hc : s.build.w ≤ 32 ∨ 1 ∈ w.pprime := by simpa [hT] using hw
    rcases hc with h32 | h1
    · rw [limb_one_of_lt h32 hs.pprime, limb_one_of_lt h32 (hb ▸ ht.pprime)]
    · exact h.pprime 1 h1
  | p k =>
    have hc : s.build.limbs ≤ k ∨ k ∈ w.p := by simpa [hT] using hw
    simp only [Machine.readData, ← hb]
    exact slotRead_agree hs.p (hb ▸ ht.p) fun hk => h.p k (hc.resolve_left (Nat.not_le.2 hk)) hk
  | r2 k =>
    have hc : s.build.limbs ≤ k ∨ k ∈ w.r2 := by simpa [hT] using hw
    simp only [Machine.readData, ← hb]
    exact slotRead_agree hs.r2 (hb ▸ ht.r2) fun hk => h.r2 k (hc.resolve_left (Nat.not_le.2 hk)) hk
  | f r k =>
    have hc : s.build.limbs ≤ k ∨ (r, k) ∈ w.f := by simpa [hT] using hw
    simp only [Machine.readData, ← hb]
    exact slotRead_agree (hs.f r) (hb ▸ ht.f r) fun hk => h.f r k (hc.resolve_left (Nat.not_le.2 hk)) hk

/-- A write takes what it writes into the record. -/
theorem AgreeOn.writeTarget (hs : s.Inv) (ht : t.Inv) {a : Access} (hf : a.failing s = false) (hw : a.write = true) :
    AgreeOn (w.afterAccess s a) (writeTarget (targetOf a.addr) a.wdata s) (writeTarget (targetOf a.addr) a.wdata t) := by
  have hb := h.build
  unfold Written.afterAccess
  rw [hf, hw]
  cases hT : targetOf a.addr with
  | id => exact h
  | cfg0 => exact h
  | cfg1 => exact h
  | cmd => exact h
  | unmapped => exact h
  | ctrl => exact { h with ctrl := congrArg (ctrlWrite a.wdata) h.ctrl }
  | status => exact { h with status := congrArg (statusWrite a.wdata) h.status }
  | chainCfg => exact { h with chainCfg := fun _ => ⟨rfl, rfl, rfl⟩ }
  | chainStep i =>
    refine { h with steps := fun j hj => ?_ }
    change (s.chain.steps.set i.val _)[j.val] = (t.chain.steps.set i.val _)[j.val]
    by_cases e : i = j
    · subst e
      simp
    · have hv : i.val ≠ j.val := fun e' => e (Fin.ext e')
      rw [Vector.getElem_set_ne _ _ hv, Vector.getElem_set_ne _ _ hv]
      exact h.steps j (List.mem_of_ne_of_mem (Ne.symm e) hj)
  | pprimeLo =>
    refine { h with pprime := fun j hj => ?_ }
    simp only [Machine.writeTarget, ← hb]
    exact limb_pprimeWrite_agree _ fun e => h.pprime j (List.mem_of_ne_of_mem e hj)
  | pprimeHi =>
    refine { h with pprime := fun j hj => ?_ }
    simp only [Machine.writeTarget, ← hb]
    exact limb_pprimeWrite_agree _ fun e => h.pprime j (List.mem_of_ne_of_mem e hj)
  | p k =>
    refine { h with p := fun j hj hl => ?_ }
    simp only [Machine.writeTarget, ← hb]
    exact limb_slotWrite_agree hs.p (hb ▸ ht.p) _ hl fun e => h.p j (List.mem_of_ne_of_mem e hj) hl
  | r2 k =>
    refine { h with r2 := fun j hj hl => ?_ }
    simp only [Machine.writeTarget, ← hb]
    exact limb_slotWrite_agree hs.r2 (hb ▸ ht.r2) _ hl fun e => h.r2 j (List.mem_of_ne_of_mem e hj) hl
  | f r k =>
    refine { h with f := fun q j hj hl => ?_ }
    simp only [Machine.writeTarget, ← hb, setReg_reg]
    have old : (q, j) ≠ (r, k) → limb j (s.reg q) = limb j (t.reg q) := fun e =>
      h.f q j (List.mem_of_ne_of_mem e hj) hl
    by_cases e : q = r
    · subst e
      rw [if_pos rfl, if_pos rfl]
      exact limb_slotWrite_agree (hs.f q) (hb ▸ ht.f q) _ hl fun e => old (by simp [e])
    · rw [if_neg e, if_neg e]
      exact old (by simp [e])

end Agree

/-! ### The step -/

/-- The step of an access that does not fail and writes CMD presents its word, answered OKAY (20_memory.md R78). -/
theorem step_command {s : State} {a : Access} {rest : List Event} (h : s.script = .access a :: rest)
    (hf : a.failing s = false) (hw : a.write = true) (hn : targetOf a.addr = .cmd) :
    step s = present a.wdata ((takeEvent rest s).respond okayWrite) := by
  unfold step
  rw [h]
  change access a (takeEvent rest s) = _
  unfold access busAccess
  rw [failing_takeEvent, hf, hw, hn]
  rfl

theorem afterAccess_failing {w : Written} {s : State} {a : Access} (h : a.failing s = true) : w.afterAccess s a = w := by
  simp [Written.afterAccess, h]

theorem afterAccess_read {w : Written} {s : State} {a : Access} (h : a.write = false) : w.afterAccess s a = w := by
  simp [Written.afterAccess, h]

theorem afterAccess_command {w : Written} {s : State} {a : Access} (h : targetOf a.addr = .cmd) :
    w.afterAccess s a = w := by
  simp [Written.afterAccess, h]

/-- What the monitor asks of a command that passes the front end (R55). -/
theorem allows_run {w : Written} {s : State} {a : Access} {i : Instr} (hf : a.failing s = false) (hw : a.write = true)
    (hn : targetOf a.addr = .cmd) (hr : frontEnd a.wdata s = .run i) (h : w.allows s a = true) :
    ((profile i).chain = true → w.hasChain s.chain = true) ∧
      (((profile i).chain = true ∧ s.chain.valid = false) ∨ w.covers s i = true) := by
  unfold Written.allows at h
  rw [hf, hw, if_neg (by decide), if_pos rfl, if_pos hn, hr] at h
  simpa only [Bool.and_eq_true, Bool.or_eq_true, Bool.not_eq_true', Bool.eq_false_iff, ← imp_iff_not_or] using h

/-- An access that reads nothing unwritten. -/
theorem AgreeOn.access {w : Written} {s t s' : State} {a : Access} {rest : List Event} (h : AgreeOn w s t)
    (hs : s.Inv) (ht : t.Inv) (hscript : s.script = .access a :: rest) (hw : w.allows (Machine.takeEvent rest s) a = true)
    (e : AccessCase a (Machine.takeEvent rest s) s') :
    ∃ t', step t = .next t' ∧ AgreeOn (w.afterAccess (Machine.takeEvent rest s) a) s' t' := by
  have h0 := h.takeEvent rest
  have hs0 := hs.takeEvent rest
  have ht0 := ht.takeEvent rest
  have hst : t.script = .access a :: rest := h.script ▸ hscript
  have hft : a.failing (Machine.takeEvent rest s) = a.failing t := failing_congr a h0.busy (congrArg Ctrl.lock h0.ctrl)
  have front : frontEnd a.wdata (Machine.takeEvent rest s) =
      frontEnd a.wdata ((Machine.takeEvent rest t).respond okayWrite) :=
    frontEnd_congr _ h0.busy (congrArg Ctrl.lock h0.ctrl)
  cases e with
  | slverr hf e =>
    rw [afterAccess_failing hf, e]
    exact ⟨_, step_slverr hst (hft ▸ hf), h0.respond _⟩
  | read hf hr e =>
    rw [afterAccess_read hr, e, h0.readData hs0 ht0 hf hr hw]
    exact ⟨_, step_read hst (hft ▸ hf) hr, h0.respond _⟩
  | write hf hwr hn e =>
    rw [e]
    exact ⟨_, step_write hst (hft ▸ hf) hwr hn, (h0.writeTarget hs0 ht0 hf hwr).respond _⟩
  | rejected hf hwr hn c hr e =>
    rw [afterAccess_command hn, e, step_command hst (hft ▸ hf) hwr hn, present, ← front, hr]
    exact ⟨_, rfl, (h0.respond _).reject c⟩
  | command hf hwr hn i hr e =>
    obtain ⟨hc, hv⟩ := allows_run hf hwr hn hr hw
    rw [afterAccess_command hn, step_command hst (hft ▸ hf) hwr hn, present, ← front, hr]
    exact (h0.respond _).exec (hs0.respond _) (ht0.respond _) hc hv e

/-- The step of a reset edge (70_reset_and_hazards.md R290). -/
theorem step_reset {s : State} {a : Option Access} {rest : List Event} (h : s.script = .reset a :: rest) :
    step s = .next (resetEdge a (takeEvent rest s)) := by
  unfold step
  rw [h]

theorem next_engine {w : Written} {s : State} (h : EngineMoves s) : w.next s = w.afterEngine s := by
  unfold Written.next
  rcases h with h | ⟨rest, h⟩ <;> rw [h]

/-- Settles O59: the engine writes the same values in both states, a reset edge leaves nothing written, and an access reads
only what the states agree on. -/
theorem unwrittenValuesStayInvisible : Obligations.UnwrittenValuesStayInvisible := by
  intro w s t s' hs ht h hsafe hstep
  cases step_cases hstep with
  | engine rest hscript _ =>
    have hm : EngineMoves s := hscript.imp And.left fun h => ⟨rest, h⟩
    have hmt : EngineMoves t := by simpa only [EngineMoves, h.script] using hm
    rw [step_engine hm] at hstep
    cases hstep
    rw [next_engine hm, h.script]
    exact ⟨_, step_engine hmt, (h.takeEvent _).engineTurn⟩
  | reset a rest hscript e =>
    rw [e, Written.next, hscript]
    exact ⟨_, step_reset (h.script ▸ hscript), (h.takeEvent rest).resetEdge a⟩
  | access a rest hscript e =>
    rw [Written.safe, hscript] at hsafe
    rw [Written.next, hscript]
    exact h.access hs ht hscript hsafe e

end Sys2Proof.Machine
end

section
/-! What changes STATUS, LOCK and what LOCK freezes (10_state.md R40, R42 to R44; 20_memory.md R83), by what a
step can do. -/

namespace Sys2Proof.Machine

/-- A host write that does not fail, at an offset. -/
theorem writesAt_of_access {s : State} {a : Access} {rest : List Event} (h : s.script = .access a :: rest)
    (hf : a.failing (takeEvent rest s) = false) (hw : a.write = true) {n : Nat} (hn : a.addr.toNat = n) :
    WritesAt s n a.wdata := ⟨a, rest, h, hw, hn, rfl, hf⟩

/-- The step's effect on STATUS, with BUSY (10_state.md R41 to R44). -/
inductive StatusCase (s t : State) : Prop where
  /-- Neither STATUS nor BUSY changes. -/
  | same (hb : t.engine = s.engine) (e : t.status = s.status)
  /-- A rejection. -/
  | rejected (w : Word) (c : RejectCode) (h : WritesAt s 0x0018 w) (hb : t.engine = s.engine)
      (e : t.status = (reject c s).status)
  /-- An acceptance. -/
  | accepted (w : Word) (r : Result) (h : WritesAt s 0x0018 w) (hs : s.engine = none) (hb : t.engine = some r)
      (e : t.status = { s.status with done := false })
  /-- A STATUS write. -/
  | cleared (v : Word) (h : WritesAt s 0x0014 v) (hb : t.engine = s.engine) (e : t.status = statusWrite v s.status)
  /-- A completion. -/
  | completed (r : Result) (h : EngineMoves s) (hs : s.engine = some r) (hb : t.engine = none)
      (e : t.status = { s.status with done := true, c := r.carry.getD s.status.c })
  /-- A reset edge. -/
  | reset (h : ResetHits s) (hb : t.engine = none) (e : t.status = ⟨false, false, false, none⟩)

theorem reject_status_congr (c : RejectCode) {s t : State} (h : s.status = t.status) :
    (reject c s).status = (reject c t).status := by
  unfold reject
  rw [h]
  split
  · exact h
  · rfl

/-- Everything a step can do to STATUS and BUSY. -/
theorem step_statusCase {s t : State} (h : step s = .next t) : StatusCase s t := by
  cases step_cases h with
  | engine rest hscript e =>
    have hm : EngineMoves s := hscript.imp And.left fun h => ⟨rest, h⟩
    cases he : (takeEvent rest s).engine with
    | none =>
      rw [engineTurn_idle he] at e
      exact .same (by rw [e]; rfl) (by rw [e]; rfl)
    | some r =>
      rw [engineTurn_busy he, complete_eq] at e
      exact .completed r hm he (by rw [e]) (by rw [e]; rfl)
  | reset a rest hscript e =>
    exact .reset ⟨a, rest, hscript⟩ (by rw [e]; cases a <;> rfl) (by rw [e]; cases a <;> rfl)
  | access a rest hscript e =>
    cases e with
    | slverr _ e => exact .same (by rw [e]; rfl) (by rw [e]; rfl)
    | read _ _ e => exact .same (by rw [e]; rfl) (by rw [e]; rfl)
    | write hf hw hn e =>
      have hb : t.engine = s.engine := by rw [e, respond_engine, writeTarget_engine, takeEvent_engine]
      by_cases hT : targetOf a.addr = .status
      · rw [hT] at e
        exact .cleared _ (writesAt_of_access hscript hf hw (targetOf_eq_status.1 hT)) hb (by rw [e]; rfl)
      · exact .same hb (by rw [e, respond_status, writeTarget_status _ _ _ hT, takeEvent_status])
    | rejected hf hw hn c _ e =>
      exact .rejected _ c (writesAt_of_access hscript hf hw (targetOf_eq_cmd.1 hn)) (by rw [e, reject_engine]; rfl)
        (by rw [e]; exact reject_status_congr c rfl)
    | command hf hw hn i _ e =>
      have hwr := writesAt_of_access hscript hf hw (targetOf_eq_cmd.1 hn)
      rcases exec_cases e with ⟨c, rfl⟩ | ⟨r, rfl, hs, -⟩
      · exact .rejected _ c hwr (by rw [reject_engine]; rfl) (reject_status_congr c rfl)
      · exact .accepted _ r hwr (by simpa [State.busy] using hs.1) rfl rfl

/-- Settles O13: of the six things a step can do to STATUS, four change BUSY or DONE, each as R43 lists it. -/
theorem busyAndDoneChanges : Obligations.BusyAndDoneChanges := by
  intro s t h
  cases step_statusCase h with
  | same hb e => exact ⟨fun hc => absurd (congrArg Option.isSome hb) hc, fun hc => absurd (congrArg Status.done e) hc⟩
  | rejected w c _ hb e =>
    exact ⟨fun hc => absurd (congrArg Option.isSome hb) hc, fun hc => absurd (by rw [e, reject_done]) hc⟩
  | accepted w r hw hs hb e =>
    have hbt : t.busy = true := by simp [State.busy, hb]
    have hdt : t.status.done = false := by rw [e]
    exact ⟨fun _ => .inl ⟨w, hw, by simp [State.busy, hs], hbt, hdt⟩, fun _ => .inl ⟨w, hw, hbt, hdt⟩⟩
  | cleared v hw hb e =>
    refine ⟨fun hc => absurd (congrArg Option.isSome hb) hc, fun hc => .inr (.inr (.inl ⟨v, hw, ?_⟩))⟩
    rw [e, statusWrite_done] at hc ⊢
    by_cases hv : v.getLsbD 1 = true
    · exact ⟨hv, if_pos hv⟩
    · exact absurd (if_neg hv) hc
  | completed r hm hs hb e =>
    have hbs : s.busy = true := by simp [State.busy, hs]
    have hbt : t.busy = false := by simp [State.busy, hb]
    have hdt : t.status.done = true := by rw [e]
    exact ⟨fun _ => .inr (.inl ⟨hm, hbs, hbt, hdt⟩), fun _ => .inr (.inl ⟨hm, hbs, hbt, hdt⟩)⟩
  | reset hr hb e =>
    exact ⟨fun _ => .inr (.inr ⟨hr, by simp [State.busy, hb]⟩), fun _ => .inr (.inr (.inr ⟨hr, by rw [e]⟩))⟩

/-- Settles O14: a rejection with ERR = 1 keeps the first error; STATUS writes without bit 2 keep the record. -/
theorem errorRecordChanges : Obligations.ErrorRecordChanges := by
  intro s t h
  cases step_statusCase h with
  | same _ e => exact .inl ⟨by rw [e], by rw [e]⟩
  | rejected w c hw _ e =>
    cases he : s.status.err with
    | true => exact .inl ⟨by rw [e, reject_err], by rw [e, reject_errcode, he, if_pos rfl]⟩
    | false =>
      exact .inr (.inl ⟨w, c, hw, rfl, by rw [e, reject_err], by rw [e, reject_errcode, he, if_neg (by decide)]⟩)
  | accepted _ _ _ _ _ e => exact .inl ⟨by rw [e], by rw [e]⟩
  | cleared v hw _ e =>
    rw [e, statusWrite_err, statusWrite_errcode]
    by_cases hv : v.getLsbD 2 = true
    · exact .inr (.inr (.inl ⟨v, hw, hv, if_pos hv, if_pos hv⟩))
    · exact .inl ⟨if_neg hv, if_neg hv⟩
  | completed _ _ _ _ e => exact .inl ⟨by rw [e], by rw [e]⟩
  | reset hr _ e => exact .inr (.inr (.inr ⟨hr, by rw [e], by rw [e]⟩))

/-- The commands that write C are those with OP 0x01 to 0x04 (10_state.md R42). -/
theorem writesC_eq (i : Instr) : (profile i).writesC = decide (i.opcode ≤ 0x04) := by cases i <;> rfl

/-- Settles O15: an accepted command's result carries C as its profile says, and only a completion publishes it. -/
theorem carryWrittenOnlyByMultiprecision : Obligations.CarryWrittenOnlyByMultiprecision := by
  constructor
  · intro i s t r h hs hr
    rcases exec_cases h with ⟨c, rfl⟩ | ⟨r', rfl, -, hc, -⟩
    · rw [reject_engine] at hr
      simp [State.busy, hr] at hs
    · obtain rfl : r' = r := Option.some.inj hr
      rw [hc, writesC_eq]
  · intro s t h hne
    cases step_statusCase h with
    | same _ e => exact absurd (by rw [e]) hne
    | rejected _ c _ _ e => exact absurd (by rw [e, reject_c]) hne
    | accepted _ _ _ _ _ e => exact absurd (by rw [e]) hne
    | cleared v _ _ e => exact absurd (by rw [e]; rfl) hne
    | completed r hm hs _ e =>
      rw [e] at hne ⊢
      cases hc : r.carry with
      | none => simp [hc] at hne
      | some c => exact .inl ⟨hm, r, hs, by simp [hc]⟩
    | reset hr _ e => exact .inr ⟨hr, by rw [e]⟩

/-- A write that LOCK lets through keeps LOCK, the constants and the chain table (20_memory.md R83). -/
theorem writeTarget_frozen {T : Target} {s : State} (v : Word) (hl : s.ctrl.lock = true)
    (hr : refusedAt true T s = false) :
    (writeTarget T v s).consts = s.consts ∧ (writeTarget T v s).chain = s.chain := by
  have unlocked : s.ctrl.lock ≠ false := by simp [hl]
  cases T with
  | id => exact ⟨rfl, rfl⟩
  | cfg0 => exact ⟨rfl, rfl⟩
  | cfg1 => exact ⟨rfl, rfl⟩
  | ctrl => exact ⟨rfl, rfl⟩
  | status => exact ⟨rfl, rfl⟩
  | cmd => exact ⟨rfl, rfl⟩
  | f r k => exact ⟨rfl, rfl⟩
  | unmapped => exact ⟨rfl, rfl⟩
  | chainCfg => exact absurd hr unlocked
  | chainStep i => exact absurd hr unlocked
  | pprimeLo => exact absurd hr unlocked
  | pprimeHi => exact absurd hr unlocked
  | p k => exact absurd hr unlocked
  | r2 k => exact absurd hr unlocked

/-- A command presented, accepted or not, leaves CTRL, the constants and the chain table. -/
theorem exec_frame {i : Instr} {s t : State} (h : exec i s = .next t) :
    t.ctrl = s.ctrl ∧ t.consts = s.consts ∧ t.chain = s.chain := by
  rcases exec_cases h with ⟨c, rfl⟩ | ⟨r, rfl, -⟩
  · exact ⟨reject_ctrl c s, reject_consts c s, reject_chain c s⟩
  · exact ⟨rfl, rfl, rfl⟩

theorem engineTurn_frame (s : State) :
    (engineTurn s).ctrl = s.ctrl ∧ (engineTurn s).consts = s.consts ∧ (engineTurn s).chain = s.chain := by
  cases h : s.engine with
  | none => rw [engineTurn_idle h]; exact ⟨rfl, rfl, rfl⟩
  | some r => rw [engineTurn_busy h]; exact ⟨complete_ctrl r s, complete_consts r s, complete_chain r s⟩

/-- No access clears LOCK or changes what it freezes. -/
theorem AccessCase.frozen {a : Access} {s t : State} (h : AccessCase a s t) (hl : s.ctrl.lock = true) :
    t.ctrl.lock = true ∧ t.consts = s.consts ∧ t.chain = s.chain := by
  cases h with
  | slverr _ e => rw [e]; exact ⟨hl, rfl, rfl⟩
  | read _ _ e => rw [e]; exact ⟨hl, rfl, rfl⟩
  | write hf hw _ e =>
    rw [Access.failing, hw, Bool.or_eq_false_iff] at hf
    rw [e]
    exact ⟨writeTarget_lock _ _ _ hl, writeTarget_frozen _ hl hf.2⟩
  | rejected _ _ _ c _ e =>
    rw [e, reject_ctrl, reject_consts, reject_chain]
    exact ⟨hl, rfl, rfl⟩
  | command _ _ _ i _ e =>
    obtain ⟨hctrl, hconsts, hchain⟩ := exec_frame e
    exact ⟨by rw [hctrl]; exact hl, hconsts, hchain⟩

/-- Settles O31: of a step that is no reset edge, the engine's turn leaves all of it alone, and an access what LOCK
freezes. -/
theorem lockFreezesConstants : Obligations.LockFreezesConstants := by
  intro s t h hl
  cases step_cases h with
  | engine rest _ e =>
    obtain ⟨hctrl, hconsts, hchain⟩ := engineTurn_frame (takeEvent rest s)
    rw [e, hctrl]
    exact .inr ⟨hl, hconsts, hchain⟩
  | reset a rest hscript _ => exact .inl ⟨a, rest, hscript⟩
  | access a rest _ e => exact .inr (e.frozen hl)

end Sys2Proof.Machine
end

section
/-! The registers on the bus (10_state.md R37 to R41, R45 to R48, R53, R54; 20_memory.md R73): what each reads as, and what a
write leaves in it. -/

namespace Sys2Proof.Machine

/-! ### Words by their bits -/

/-- A bit of a word, from the word's value. -/
theorem getLsbD_eq_of_div {v : Word} {i : Nat} {b : Bool} (h : v.toNat / 2 ^ i % 2 = b.toNat) : v.getLsbD i = b := by
  rw [BitVec.getLsbD, Nat.testBit_eq_decide_div_mod_eq, h]
  cases b <;> rfl

theorem toNat_append_eq_add {m n : Nat} (x : BitVec m) (y : BitVec n) : (x ++ y).toNat = 2 ^ n * x.toNat + y.toNat := by
  rw [BitVec.toNat_append, ← Nat.shiftLeft_add_eq_or_of_lt y.isLt, Nat.shiftLeft_eq, Nat.mul_comm]

/-- An offset divisible by 4 is word-aligned on the bus (20_memory.md R76). -/
theorem ofNat_aligned {n : Nat} (h : n % 4 = 0) : (BitVec.ofNat 13 n).toNat % 4 = 0 := by
  rw [BitVec.toNat_ofNat]
  omega

/-! ### CTRL, STATUS and irq -/

theorem ctrlWord_toNat (c : Ctrl) : (ctrlWord c).toNat = c.lock.toNat + 2 * c.ieDone.toNat + 4 * c.ieErr.toNat := by
  have := c.lock.toNat_lt
  have := c.ieDone.toNat_lt
  have := c.ieErr.toNat_lt
  rw [ctrlWord, BitVec.toNat_ofNat]
  omega

theorem errcodeNumber_le (e : Option RejectCode) : errcodeNumber e ≤ 6 := by
  cases e with
  | none => decide
  | some c => cases c <;> decide

theorem statusWord_toNat (s : State) : s.statusWord.toNat =
    s.busy.toNat + 2 * s.status.done.toNat + 4 * s.status.err.toNat + 8 * s.status.c.toNat
      + 256 * errcodeNumber s.status.errcode := by
  have := s.busy.toNat_lt
  have := s.status.done.toNat_lt
  have := s.status.err.toNat_lt
  have := s.status.c.toNat_lt
  have := errcodeNumber_le s.status.errcode
  rw [State.statusWord, BitVec.toNat_ofNat]
  omega

/-- Settles O16: R54's formula, read as propositions. -/
theorem interruptLine : Obligations.InterruptLine := by
  intro s
  rw [State.irq, Bool.or_eq_true, Bool.and_eq_true, Bool.and_eq_true]

/-- Settles O17: the word's value is the sum of its fields, so each field is a quotient of it. -/
theorem statusWordLayout : Obligations.StatusWordLayout := by
  intro s
  have hb := s.busy.toNat_lt
  have hd := s.status.done.toNat_lt
  have he := s.status.err.toNat_lt
  have hc := s.status.c.toNat_lt
  have hn := errcodeNumber_le s.status.errcode
  have hw := statusWord_toNat s
  have number : s.statusWord.toNat / 2 ^ 8 = errcodeNumber s.status.errcode := by omega
  refine ⟨fun rest h => step_readAt h (ofNat_aligned rfl) (targetOf_eq_status.2 rfl) rfl, getLsbD_eq_of_div ?_,
    getLsbD_eq_of_div ?_, getLsbD_eq_of_div ?_, getLsbD_eq_of_div ?_, ?_, ?_, ?_⟩
  · omega
  · omega
  · omega
  · omega
  · omega
  · omega
  · rw [number]
    cases s.status.errcode with
    | none => rfl
    | some c => cases c <;> rfl

/-- Settles O23: CTRL is never refused, and its word's value is the sum of its bits. -/
theorem ctrlRegister : Obligations.CtrlRegister := by
  refine ⟨fun s v rest h => step_writeAt (T := .ctrl) h (ofNat_aligned rfl) (by decide) rfl (by decide),
    fun s rest h => ⟨ctrlWord s.ctrl, step_readAt (T := .ctrl) h (ofNat_aligned rfl) (by decide) rfl, ?_⟩⟩
  have hl := s.ctrl.lock.toNat_lt
  have hd := s.ctrl.ieDone.toNat_lt
  have he := s.ctrl.ieErr.toNat_lt
  have hw := ctrlWord_toNat s.ctrl
  refine ⟨getLsbD_eq_of_div ?_, getLsbD_eq_of_div ?_, getLsbD_eq_of_div ?_, ?_⟩
  · omega
  · omega
  · omega
  · omega

/-- Settles O24: the write reaches `statusWrite` alone. -/
theorem statusWriteOneClears : Obligations.StatusWriteOneClears := by
  intro s v rest h
  exact ⟨_, step_writeAt h (ofNat_aligned rfl) (targetOf_eq_status.2 rfl) rfl (by decide), rfl, rfl, rfl,
    statusWrite_done v s.status, statusWrite_err v s.status, statusWrite_errcode v s.status⟩

/-! ### Identification and reset -/

/-- The sizes of a legal build (00_scope.md R7, R8). -/
theorem build_bounds {b : Build} (h : b.wf = true) : b.w ≤ 64 ∧ b.words ≤ 128 ∧ b.limbs ≤ 32 := by
  have hw : 8 ≤ b.w ∧ b.w ≤ 64 := by unfold Build.w; cases b.wordBits <;> decide
  have he : b.elemBits ≤ 1024 := by
    rw [Build.wf, Bool.and_eq_true, decide_eq_true_eq, decide_eq_true_eq] at h
    exact h.2
  have hm : 8 * b.words ≤ b.elemBits := Nat.mul_le_mul_right _ hw.1
  unfold Build.limbs
  omega

theorem cfg0Word_toNat {b : Build} (h : b.wf = true) :
    (cfg0Word b).toNat = 2 ^ 16 * 32 + 2 ^ 24 * b.limbs + 2 ^ 8 * b.words + b.w := by
  have := build_bounds h
  rw [cfg0Word, BitVec.toNat_ofNat, Config.nreg]
  omega

/-- Settles O22: in a legal build no field of CFG0 overflows into the next. -/
theorem identificationRegisters : Obligations.IdentificationRegisters := by
  intro s rest hb
  refine ⟨fun h => step_readAt (T := .id) h (ofNat_aligned rfl) (by decide) rfl,
    fun h => step_readAt (T := .cfg1) h (ofNat_aligned rfl) (by decide) rfl,
    fun h => step_readAt (T := .cmd) h (ofNat_aligned rfl) (by decide) rfl,
    fun h => ⟨cfg0Word s.build, step_readAt (T := .cfg0) h (ofNat_aligned rfl) (by decide) rfl, ?_⟩, ?_⟩
  · have hn := cfg0Word_toNat hb
    obtain ⟨hw, hwords, hl⟩ := build_bounds hb
    have hlimbs : s.build.limbs = (s.build.w * s.build.words + 31) / 32 := rfl
    rw [← hlimbs]
    omega
  · rintro offset v (rfl | rfl | rfl) h
    · exact step_writeAt (T := .id) h (ofNat_aligned rfl) (by decide) rfl (by decide)
    · exact step_writeAt (T := .cfg0) h (ofNat_aligned rfl) (by decide) rfl (by decide)
    · exact step_writeAt (T := .cfg1) h (ofNat_aligned rfl) (by decide) rfl (by decide)

theorem chainStepWord_toNat (st : ChainStep) : (chainStepWord st).toNat = st.k.toNat + 2 ^ 16 * st.j.toNat := by
  have := st.k.isLt
  have := st.j.isLt
  rw [chainStepWord, BitVec.toNat_ofNat]
  omega

/-- Bits [31:24] of CHAIN_STEP[i] read 0 (10_state.md R38). -/
theorem chainStepWord_reserved (st : ChainStep) : (chainStepWord st).toNat / 2 ^ 24 = 0 := by
  have := st.k.isLt
  have := st.j.isLt
  rw [chainStepWord_toNat]
  omega

/-- Settles O18: the values are the literals of `State.resetOf`; a CHAIN_STEP register's high byte is 0 in every state. -/
theorem resetValues : Obligations.ResetValues := fun _ =>
  ⟨rfl, rfl, rfl, rfl, rfl, rfl, rfl, rfl, fun _ => chainStepWord_reserved _, rfl, rfl⟩

/-! ### The chain table -/

theorem chainCfgWord_eq (t : ChainTable) : chainCfgWord t = t.nsteps ++ t.j0 ++ t.npow := by
  apply BitVec.eq_of_toNat_eq
  have := t.npow.isLt
  have := t.j0.isLt
  have := t.nsteps.isLt
  rw [toNat_append_eq_add, toNat_append_eq_add, chainCfgWord, BitVec.toNat_ofNat]
  omega

theorem chainStepWord_eq (st : ChainStep) : chainStepWord st = (0 : BitVec 8) ++ st.j ++ st.k := by
  apply BitVec.eq_of_toNat_eq
  rw [toNat_append_eq_add, toNat_append_eq_add, chainStepWord_toNat]
  change _ = 2 ^ 16 * (2 ^ 8 * 0 + st.j.toNat) + st.k.toNat
  omega

/-- A field of n bits at bit lo of a word. -/
theorem ofNat_bits (v : Word) (n lo : Nat) :
    BitVec.ofNat (n + 1) (bits (lo + n) lo v.toNat) = (v >>> lo).setWidth (n + 1) := by
  apply BitVec.eq_of_toNat_eq
  rw [BitVec.toNat_ofNat, BitVec.toNat_setWidth, BitVec.toNat_ushiftRight, Nat.shiftRight_eq_div_pow, bits,
    Nat.add_sub_cancel_left, Nat.mod_mod]

theorem chainCfgWrite_eq (v : Word) (t : ChainTable) : chainCfgWrite v t =
    { t with npow := v.setWidth 8, j0 := (v >>> 8).setWidth 8, nsteps := (v >>> 16).setWidth 16 } := by
  unfold chainCfgWrite
  rw [ofNat_bits v 7 0, ofNat_bits v 7 8, ofNat_bits v 15 16, BitVec.ushiftRight_zero]

theorem chainStepOf_eq (v : Word) : chainStepOf v = ⟨v.setWidth 16, (v >>> 16).setWidth 8⟩ := by
  unfold chainStepOf
  rw [ofNat_bits v 15 0, ofNat_bits v 7 16, BitVec.ushiftRight_zero]

/-- CHAIN_CFG reads back what was written (10_state.md R37). -/
theorem chainCfgWord_chainCfgWrite (v : Word) (t : ChainTable) : chainCfgWord (chainCfgWrite v t) = v := by
  apply BitVec.eq_of_toNat_eq
  have := v.isLt
  rw [chainCfgWord_eq, chainCfgWrite_eq, toNat_append_eq_add, toNat_append_eq_add]
  simp only [BitVec.toNat_setWidth, BitVec.toNat_ushiftRight, Nat.shiftRight_eq_div_pow]
  omega

/-- CHAIN_STEP[i] reads back what was written, its reserved bits as 0 (10_state.md R38). -/
theorem chainStepWord_chainStepOf (v : Word) : chainStepWord (chainStepOf v) = v &&& 0x00FFFFFF := by
  apply BitVec.eq_of_toNat_eq
  have mask : (v &&& 0x00FFFFFF).toNat = v.toNat % 2 ^ 24 := Nat.and_two_pow_sub_one_eq_mod v.toNat 24
  rw [mask, chainStepWord_toNat, chainStepOf_eq]
  simp only [BitVec.toNat_setWidth, BitVec.toNat_ushiftRight, Nat.shiftRight_eq_div_pow]
  omega

theorem targetOf_chainCfg : targetOf (BitVec.ofNat 13 0x0020) = .chainCfg := by decide

theorem chainStep_aligned (i : Fin 256) : (BitVec.ofNat 13 (0x0400 + 4 * i.val)).toNat % 4 = 0 := ofNat_aligned (by omega)

theorem step_readChainCfg {s : State} {rest : List Event} {d : Word} (h : s.script = .access (readAt 0x0020) :: rest)
    (hd : chainCfgWord s.chain = d) : step s = .next { s with script := rest, resp := some ⟨false, some d⟩ } := by
  subst hd
  exact step_readAt h (ofNat_aligned rfl) targetOf_chainCfg rfl

theorem step_readChainStep {s : State} {rest : List Event} {i : Fin 256} {d : Word}
    (h : s.script = .access (readAt (0x0400 + 4 * i.val)) :: rest) (hd : chainStepWord s.chain.steps[i.val] = d) :
    step s = .next { s with script := rest, resp := some ⟨false, some d⟩ } := by
  subst hd
  exact step_readAt h (chainStep_aligned i) (targetOf_chainStep i) rfl

/-- Settles O30: a chain register's word is its fields side by side, and a write splits the word at the same bits. -/
theorem chainRegistersReadBack : Obligations.ChainRegistersReadBack := by
  refine ⟨fun s rest => ⟨fun h => ?_, fun i h => ?_⟩, fun s v rest hl => ⟨fun h => ?_, fun i h => ?_⟩⟩
  · exact step_readChainCfg h (chainCfgWord_eq s.chain)
  · exact step_readChainStep h (chainStepWord_eq _)
  · have hr : refusedAt true .chainCfg s = false := hl
    refine ⟨_, step_writeAt h (ofNat_aligned rfl) targetOf_chainCfg hr (by decide), rfl, rfl, ?_⟩
    change (chainCfgWrite v s.chain).npow = _ ∧ (chainCfgWrite v s.chain).j0 = _ ∧
      (chainCfgWrite v s.chain).nsteps = _ ∧ _
    refine ⟨by rw [chainCfgWrite_eq], by rw [chainCfgWrite_eq], by rw [chainCfgWrite_eq], ?_⟩
    exact step_readChainCfg rfl (chainCfgWord_chainCfgWrite v s.chain)
  · have hr : refusedAt true (.chainStep i) s = false := hl
    have write := chainStepOf_eq v
    have read : chainStepWord (s.chain.steps.set i.val (chainStepOf v))[i.val] = v &&& 0x00FFFFFF := by
      rw [Vector.getElem_set_self, chainStepWord_chainStepOf]
    refine ⟨_, step_writeAt h (chainStep_aligned i) (targetOf_chainStep i) hr (by simp), by rw [← write]; rfl, ?_⟩
    exact step_readChainStep rfl read

/-! ### Limbs -/

/-- Settles O25: the write is not refused and reaches `slotWrite` of limb k of that register. -/
theorem limbWrite : Obligations.LimbWrite := by
  intro s r k v rest hs hk
  have hk32 : k < 32 := hk.trans_le (build_bounds hs.build).2.2
  refine ⟨fun hb h => ?_, fun hl h => ?_, fun hl h => ?_⟩
  · have hr : refusedAt true (.f r k) s = false := hb
    refine ⟨_, step_writeAt h (ofNat_aligned (by omega)) (targetOf_f r hk32) hr (by simp), rfl,
      fun q hq => setReg_reg_ne _ _ _ hq, ?_⟩
    change limb k ((s.setReg r _).reg r) = _ ∧ ∀ j, j ≠ k → limb j ((s.setReg r _).reg r) = _
    rw [setReg_reg_self]
    exact ⟨limb_slotWrite_self hk v _, fun j hj => limb_slotWrite_ne hj v (hs.f r)⟩
  · have hr : refusedAt true (.p k) s = false := hl
    exact ⟨_, step_writeAt h (ofNat_aligned (by omega)) (targetOf_p hk32) hr (by simp), limb_slotWrite_self hk v _,
      fun j hj => limb_slotWrite_ne hj v hs.p⟩
  · have hr : refusedAt true (.r2 k) s = false := hl
    exact ⟨_, step_writeAt h (ofNat_aligned (by omega)) (targetOf_r2 hk32) hr (by simp), limb_slotWrite_self hk v _,
      fun j hj => limb_slotWrite_ne hj v hs.r2⟩

end Sys2Proof.Machine
end

section
/-! The command in flight beside the host's accesses (20_memory.md R82, R85, R86): what its completion writes, and what no
access to a busy CORE changes. -/

namespace Sys2Proof.Machine

/-- The register file after the destinations are written is that of before, with each written in order. -/
theorem writeDests_f (ds : List (Reg × Nat)) (s : State) :
    (writeDests ds s).f = ds.foldl (fun f d => f.set d.1.val d.2) s.f := by
  induction ds generalizing s with
  | nil => rfl
  | cons d ds ih => exact ih (s.setReg d.1 d.2)

/-- Settles O12: the engine's turn is `complete` when a command is in flight, and nothing otherwise. -/
theorem completionPublishesResults : Obligations.CompletionPublishesResults := by
  intro s h
  refine ⟨_, step_engine h, ?_⟩
  split
  · rename_i he
    exact engineTurn_idle he
  · rename_i r he
    rw [engineTurn_busy (s := takeEvent s.script.tail s) he, complete_eq, writeDests_f]
    rfl

/-- A write to a busy CORE reaches no F register (20_memory.md R82). -/
theorem writeTarget_f_of_busy {T : Target} {s : State} (v : Word) (hb : s.busy = true)
    (hr : refusedAt true T s = false) : (writeTarget T v s).f = s.f := by
  cases T with
  | f r k => exact absurd (hb.symm.trans hr) (by decide)
  | _ => rfl

/-- An access to a busy CORE leaves the command in flight, the register file and C (20_memory.md R82, 10_state.md R43). -/
theorem AccessCase.busy_frame {a : Access} {s t : State} (h : AccessCase a s t) (hb : s.busy = true) :
    t.engine = s.engine ∧ t.f = s.f ∧ t.status.c = s.status.c ∧ t.script = s.script := by
  cases h with
  | slverr _ e => rw [e]; exact ⟨rfl, rfl, rfl, rfl⟩
  | read _ _ e => rw [e]; exact ⟨rfl, rfl, rfl, rfl⟩
  | write hf hw _ e =>
    rw [Access.failing, hw, Bool.or_eq_false_iff] at hf
    rw [e]
    exact ⟨writeTarget_engine _ _ _, writeTarget_f_of_busy _ hb hf.2, writeTarget_c _ _ _, writeTarget_script _ _ _⟩
  | rejected _ _ _ c _ e => rw [e]; simp
  | command _ _ _ i hrun _ => simp [frontEnd, hb] at hrun

/-- The step of an access does what the access can do. -/
theorem accessCase_of_step {s t : State} {a : Access} {rest : List Event} (hs : s.script = .access a :: rest)
    (h : step s = .next t) : AccessCase a (takeEvent rest s) t := by
  rw [step, hs] at h
  exact access_cases h

/-- The first step of a run that reaches a state. -/
theorem step_of_run_succ {M : Host.Core} {n : Nat} {s u : M.State} (h : M.run (n + 1) s = .next u) :
    ∃ s', M.step s = .next s' ∧ M.run n s' = .next u := by
  rw [Host.Core.run] at h
  split at h
  · exact ⟨_, ‹_›, h⟩
  · cases h
  · cases h

/-- No list of accesses to a busy CORE changes the command in flight, the register file or C. -/
theorem run_accesses_busy_frame (as : List Access) {t u : State} (hb : t.busy = true)
    (hs : t.script = as.map Event.access) (h : Host.Core.run Sys2Proof.core as.length t = .next u) :
    u.engine = t.engine ∧ u.f = t.f ∧ u.status.c = t.status.c := by
  induction as generalizing t with
  | nil =>
    obtain rfl : t = u := Host.Outcome.next.inj h
    exact ⟨rfl, rfl, rfl⟩
  | cons a as ih =>
    obtain ⟨t', hstep, hrun⟩ := step_of_run_succ h
    obtain ⟨he, hf, hc, hscript⟩ := (accessCase_of_step hs hstep).busy_frame hb
    have hb' : t'.busy = true := (congrArg Option.isSome he).trans hb
    obtain ⟨he', hf', hc'⟩ := ih hb' hscript hrun
    exact ⟨he'.trans he, hf'.trans hf, hc'.trans hc⟩

/-- Settles O57: the accesses leave the command in flight, the registers and C, and these alone decide what the completion
leaves in the registers and C. -/
theorem accessesCannotDisturbACommand : Obligations.AccessesCannotDisturbACommand := by
  intro as t u hb hs hrun
  obtain ⟨he, hf, hc⟩ := run_accesses_busy_frame as hb hs hrun
  obtain ⟨r, hr⟩ := Option.isSome_iff_exists.1 hb
  rw [engineTurn_busy hr, engineTurn_busy (he.trans hr), complete_c, complete_c, complete_eq, complete_eq, writeDests_f,
    writeDests_f, hf, hc]
  exact ⟨(congrArg Option.isSome he).trans hb, rfl, rfl, rfl, rfl, rfl⟩

end Sys2Proof.Machine
end

section
/-! The host's view of the registers (20_memory.md R72 to R83): which accesses are refused, and what the slots of the element
windows and of PPRIME read and write. -/

namespace Sys2Proof.Machine

/-! 
end Sys2Proof.Machine
end

end Sys2Proof.Machine
end

end Sys2Proof.Machine
end
 Which accesses are refused -/

/-- The region of the register map an aligned offset lies in, with how its target answers (20_memory.md R80 to R83). -/
inductive RegionCase (n : Nat) (T : Target) : Prop where
  | unmapped (h : unmappedOffset n) (e : ∀ write s, refusedAt write T s = true)
  | f (h : fOffset n) (e : ∀ write s, refusedAt write T s = s.busy)
  | frozen (h : frozenOffset n) (e : ∀ write s, refusedAt write T s = (write && s.ctrl.lock))
  | free (hu : ¬unmappedOffset n) (hf : ¬fOffset n) (hz : ¬frozenOffset n) (e : ∀ write s, refusedAt write T s = false)

/-- Every aligned offset lies in a region whose targets answer alike. -/
theorem regionCase_targetOf {a : BitVec 13} (ha : a.toNat % 4 = 0) : RegionCase a.toNat (targetOf a) := by
  have hlt := a.isLt
  unfold targetOf
  generalize a.toNat = n at *
  have free : ∀ {T : Target}, n < 0x0020 ∧ n ≠ 0x000C ∧ n ≠ 0x001C → (∀ write s, refusedAt write T s = false) →
      RegionCase n T := fun hn e =>
    .free (by unfold unmappedOffset; omega) (by unfold fOffset; omega) (by unfold frozenOffset; omega) e
  simp only
  split
  · split
    case h_7 => exact .frozen (by unfold frozenOffset; omega) fun _ _ => rfl
    case h_8 => exact .frozen (by unfold frozenOffset; omega) fun _ _ => rfl
    case h_9 => exact .frozen (by unfold frozenOffset; omega) fun _ _ => rfl
    case h_10 =>
      simp only [imp_false] at *
      exact .unmapped (by unfold unmappedOffset; omega) fun _ _ => rfl
    all_goals exact free (by omega) fun _ _ => rfl
  split
  · exact .frozen (by unfold frozenOffset; omega) fun _ _ => rfl
  split
  · exact .frozen (by unfold frozenOffset; omega) fun _ _ => rfl
  split
  · exact .unmapped (by unfold unmappedOffset; omega) fun _ _ => rfl
  split
  · exact .frozen (by unfold frozenOffset; omega) fun _ _ => rfl
  split
  · exact .unmapped (by unfold unmappedOffset; omega) fun _ _ => rfl
  · exact .f (by unfold fOffset; omega) fun _ _ => rfl

/-- The offsets whose accesses are refused (20_memory.md R80 to R83). -/
theorem refusedAt_targetOf_iff {a : BitVec 13} (ha : a.toNat % 4 = 0) (write : Bool) (s : State) :
    refusedAt write (targetOf a) s = true ↔
      unmappedOffset a.toNat ∨ (fOffset a.toNat ∧ s.busy = true) ∨
        (write = true ∧ frozenOffset a.toNat ∧ s.ctrl.lock = true) := by
  cases regionCase_targetOf ha with
  | unmapped h e => simp [e, h]
  | f h e =>
    have hu : ¬unmappedOffset a.toNat := by unfold unmappedOffset fOffset at *; omega
    have hz : ¬frozenOffset a.toNat := by unfold frozenOffset fOffset at *; omega
    simp [e, h, hu, hz]
  | frozen h e =>
    have hu : ¬unmappedOffset a.toNat := by unfold unmappedOffset frozenOffset at *; omega
    have hf : ¬fOffset a.toNat := by unfold frozenOffset fOffset at *; omega
    simp [e, h, hu, hf]
  | free hu hf hz e => simp [e, hu, hf, hz]

theorem malformed_iff (a : Access) : a.malformed = true ↔ a.addr.toNat % 4 ≠ 0 ∨ a.strb ≠ 0xF := by
  simp [Access.malformed]

/-- The accesses that fail: the malformed ones and the refused ones (20_memory.md R80). -/
theorem failing_iff (a : Access) (s : State) :
    a.failing s = true ↔ (a.addr.toNat % 4 ≠ 0 ∨ a.strb ≠ 0xF) ∨ unmappedOffset a.addr.toNat ∨
      (fOffset a.addr.toNat ∧ s.busy = true) ∨ (a.write = true ∧ frozenOffset a.addr.toNat ∧ s.ctrl.lock = true) := by
  rw [Access.failing, Bool.or_eq_true, malformed_iff]
  by_cases ha : a.addr.toNat % 4 = 0
  · rw [refusedAt_targetOf_iff ha]
  · exact iff_of_true (.inl (.inl ha)) (.inl (.inl ha))

/-- An access that does not fail is answered OKAY, with data if it is a read. -/
theorem AccessCase.okay {a : Access} {s t : State} (h : AccessCase a s t) (hf : a.failing s = false) :
    ∃ d, t.resp = some ⟨false, d⟩ ∧ d.isSome = !a.write := by
  cases h with
  | slverr h _ => exact absurd (h.symm.trans hf) (by decide)
  | read _ hw e => exact ⟨_, by rw [e]; rfl, by rw [hw]; rfl⟩
  | write _ hw _ e => exact ⟨_, by rw [e]; rfl, by rw [hw]; rfl⟩
  | rejected _ hw _ c _ e => exact ⟨_, by rw [e, reject_resp]; rfl, by rw [hw]; rfl⟩
  | command _ hw _ i _ e =>
    rcases exec_cases e with ⟨c, rfl⟩ | ⟨r, rfl, -⟩
    · exact ⟨_, by rw [reject_resp]; rfl, by rw [hw]; rfl⟩
    · exact ⟨_, rfl, by rw [hw]; rfl⟩

/-- Settles O20: the cases listed are those in which the access fails. -/
theorem slverrExactly : Obligations.SlverrExactly := by
  intro s t a rest hs h n bad
  refine ⟨fun hb => ?_, fun hb => ?_⟩
  · have hf : a.failing s = true := (failing_iff a s).2 hb
    exact (Host.Outcome.next.inj ((step_slverr hs hf).symm.trans h)).symm
  · have hf : a.failing s = false := Bool.eq_false_iff.2 (mt (failing_iff a s).1 hb)
    exact (accessCase_of_step hs h).okay hf

/-- A read, answered or refused, changes the response alone. -/
theorem AccessCase.read_frame {a : Access} {s t : State} (h : AccessCase a s t) (hw : a.write = false) :
    t = { s with resp := t.resp } := by
  have hw' : a.write ≠ true := by simp [hw]
  cases h with
  | slverr _ e => rw [e]; rfl
  | read _ _ e => rw [e]; rfl
  | write _ w => exact absurd w hw'
  | rejected _ w => exact absurd w hw'
  | command _ w => exact absurd w hw'

/-- Settles O21: an answered read and a refused one both go through `State.respond` alone. -/
theorem readsHaveNoSideEffect : Obligations.ReadsHaveNoSideEffect :=
  fun _ _ _ _ hs hw h => (accessCase_of_step hs h).read_frame hw

/-! ### The limbs of an element value -/

/-- Slot k of an element window reads limb k of an element value, and 0 above the last (20_memory.md R73). -/
theorem slotRead_toNat {b : Build} (k : Nat) {x : Nat} (hx : x < b.radix) :
    (slotRead b k x).toNat = if k < b.limbs then x / 2 ^ (32 * k) % 2 ^ 32 else 0 := by
  unfold slotRead
  rw [Nat.mod_eq_of_lt hx, limb]
  split
  · rw [BitVec.toNat_ofNat, Nat.mod_mod]
  · rfl

/-- Settles O26: the read is not refused and answers `slotRead` of the window's value. -/
theorem limbRead : Obligations.LimbRead := by
  intro s r k rest hs hk
  refine ⟨fun hb h => ?_, fun h => ?_, fun h => ?_⟩
  · have hr : refusedAt false (.f r k) s = false := hb
    exact ⟨_, step_readAt h (ofNat_aligned (by omega)) (targetOf_f r hk) hr, slotRead_toNat k (hs.f r)⟩
  · exact ⟨_, step_readAt h (ofNat_aligned (by omega)) (targetOf_p hk) rfl, slotRead_toNat k hs.p⟩
  · exact ⟨_, step_readAt h (ofNat_aligned (by omega)) (targetOf_r2 hk) rfl, slotRead_toNat k hs.r2⟩

theorem setReg_self (s : State) (r : Reg) : s.setReg r (s.reg r) = s := by
  rw [State.setReg, State.reg, Vector.set_getElem_self]

/-- Settles O27: the write is not refused, and `slotWrite` leaves the window's value as it was. -/
theorem slotsAboveLIgnoreWrites : Obligations.SlotsAboveLIgnoreWrites := by
  intro s r k v rest hL hk
  refine ⟨fun hb h => ?_, fun hl h => ?_⟩
  · have hr : refusedAt true (.f r k) s = false := hb
    rw [step_writeAt h (ofNat_aligned (by omega)) (targetOf_f r hk) hr (by simp), writeTarget, takeEvent_build,
      slotWrite_above hL, setReg_self]
    rfl
  · have hp : refusedAt true (.p k) s = false := hl
    have hr2 : refusedAt true (.r2 k) s = false := hl
    rcases h with h | h
    · rw [step_writeAt h (ofNat_aligned (by omega)) (targetOf_p hk) hp (by simp), writeTarget, takeEvent_build,
        slotWrite_above hL]
      rfl
    · rw [step_writeAt h (ofNat_aligned (by omega)) (targetOf_r2 hk) hr2 (by simp), writeTarget, takeEvent_build,
        slotWrite_above hL]
      rfl

/-- The first n limbs make up the value's low 32*n bits. -/
theorem sum_limbs_eq_mod (x n : Nat) : ∑ k ∈ Finset.range n, limb k x * 2 ^ (32 * k) = x % 2 ^ (32 * n) := by
  induction n with
  | zero => simp [Nat.mod_one]
  | succ n ih =>
    rw [Finset.sum_range_succ, ih, limb, Nat.mul_succ, pow_add, Nat.mod_mul, Nat.mul_comm (2 ^ (32 * n)) (_ % _)]

/-- Settles O28: an element value has no bits above its L limbs. -/
theorem limbsAssembleTheValue : Obligations.LimbsAssembleTheValue := by
  intro b x hx
  have hlt : x < 2 ^ (32 * b.limbs) := hx.trans_le (Nat.pow_le_pow_right (by decide) (elemBits_le_limbs b))
  rw [sum_limbs_eq_mod, Nat.mod_eq_of_lt hlt]

/-! ### The halves of PPRIME -/

theorem setLimb_zero (v : Word) (x : Nat) : setLimb 0 v x = v.toNat + 2 ^ 32 * (x / 2 ^ 32) := by
  simp [setLimb, Nat.mod_one]

theorem setLimb_one (v : Word) (x : Nat) :
    setLimb 1 v x = x % 2 ^ 32 + 2 ^ 32 * v.toNat + 2 ^ 64 * (x / 2 ^ 64) := rfl

/-- A word is 64 bits wide, or at most a half of PPRIME (00_scope.md R7). -/
theorem w_of_w64 {b : Build} (h : b.wordBits = .w64) : b.w = 64 := by rw [Build.w, h]; rfl

theorem w_le_of_ne_w64 {b : Build} (h : b.wordBits ≠ .w64) : b.w ≤ 32 := by
  unfold Build.w
  cases hb : b.wordBits with
  | w64 => exact absurd hb h
  | _ => decide

/-- A high half does not reach the w bits of PPRIME when w <= 32. -/
theorem add_high_mod {w : Nat} (hw : w ≤ 32) (x y : Nat) : (x + 2 ^ 32 * y) % 2 ^ w = x % 2 ^ w := by
  obtain ⟨c, hc⟩ := Nat.pow_dvd_pow 2 hw
  rw [hc, Nat.mul_assoc, Nat.add_mul_mod_self_left]

/-- A write to PPRIME_LO replaces the low half when w = 64, and all of PPRIME otherwise (20_memory.md R74). -/
theorem pprimeWrite_lo {b : Build} (v : Word) {x : Nat} (hx : x < 2 ^ b.w) : pprimeWrite b 0 v x =
    if b.wordBits = .w64 then 2 ^ 32 * (x / 2 ^ 32) + v.toNat else v.toNat % 2 ^ b.w := by
  rw [pprimeWrite, setLimb_zero]
  split
  · rename_i h64
    rw [w_of_w64 h64] at *
    omega
  · rename_i h
    exact add_high_mod (w_le_of_ne_w64 h) _ _

/-- A write to PPRIME_HI replaces the high half when w = 64, and nothing otherwise (20_memory.md R74). -/
theorem pprimeWrite_hi {b : Build} (v : Word) {x : Nat} (hx : x < 2 ^ b.w) : pprimeWrite b 1 v x =
    if b.wordBits = .w64 then x % 2 ^ 32 + 2 ^ 32 * v.toNat else x := by
  rw [pprimeWrite, setLimb_one]
  split
  · rename_i h64
    rw [w_of_w64 h64] at *
    omega
  · rename_i h
    have hw := w_le_of_ne_w64 h
    have hx32 : x < 2 ^ 32 := hx.trans_le (Nat.pow_le_pow_right (by decide) hw)
    rw [Nat.div_eq_of_lt (hx32.trans (by decide)), Nat.mul_zero, Nat.add_zero, Nat.mod_eq_of_lt hx32, add_high_mod hw,
      Nat.mod_eq_of_lt hx]

theorem pprimeRead_lo {b : Build} {x : Nat} (hx : x < 2 ^ b.w) : pprimeRead b 0 x = BitVec.ofNat 32 (x % 2 ^ 32) := by
  rw [pprimeRead, Nat.mod_eq_of_lt hx, limb, Nat.mul_zero, pow_zero, Nat.div_one]

/-- PPRIME has no bits above its second half. -/
theorem pprimeRead_hi {b : Build} {x : Nat} (hx : x < 2 ^ b.w) : pprimeRead b 1 x = BitVec.ofNat 32 (x / 2 ^ 32) := by
  have hw : 2 ^ b.w ≤ 2 ^ 64 := Nat.pow_le_pow_right (by decide) (by unfold Build.w; cases b.wordBits <;> decide)
  rw [pprimeRead, Nat.mod_eq_of_lt hx, limb, Nat.mod_eq_of_lt (by omega)]

theorem targetOf_pprimeLo : targetOf (BitVec.ofNat 13 0x0028) = .pprimeLo := by decide

theorem targetOf_pprimeHi : targetOf (BitVec.ofNat 13 0x002C) = .pprimeHi := by decide

/-- Settles O29: the slots reach `pprimeWrite` and `pprimeRead` of halves 0 and 1. -/
theorem pprimeSlots : Obligations.PprimeSlots := by
  intro s v rest hs
  refine ⟨fun hl h => ?_, fun hl h => ?_, fun h => ?_, fun h => ?_⟩
  · have hr : refusedAt true .pprimeLo s = false := hl
    rw [step_writeAt h (ofNat_aligned rfl) targetOf_pprimeLo hr (by decide), ← pprimeWrite_lo v hs.pprime]
    rfl
  · have hr : refusedAt true .pprimeHi s = false := hl
    rw [step_writeAt h (ofNat_aligned rfl) targetOf_pprimeHi hr (by decide), ← pprimeWrite_hi v hs.pprime]
    rfl
  · rw [step_readAt h (ofNat_aligned rfl) targetOf_pprimeLo rfl, ← pprimeRead_lo hs.pprime]
    rfl
  · rw [step_readAt h (ofNat_aligned rfl) targetOf_pprimeHi rfl, ← pprimeRead_hi hs.pprime]
    rfl

end Sys2Proof.Machine
end

section
/-! Decode and encode against each other and against the opcode map (30_encoding.md R111 to R118): what Decode does with a
word, by the row of the map that its OP selects, and what it does with the word of a command. -/

namespace Sys2Proof
open Machine Laws

/-! ### The fields of a word -/

/-- OP is all of a word that lies above bit 25. -/
theorem bits_op (w : Word) : bits 31 26 w.toNat = w.toNat / 2 ^ 26 :=
  Nat.mod_eq_of_lt (Nat.div_lt_of_lt_mul w.isLt)

theorem bits_self (lo n : Nat) : bits lo lo n = n / 2 ^ lo % 2 := by
  rw [bits, Nat.sub_self, zero_add, pow_one]

theorem bits_self_zero_or_one (lo n : Nat) : bits lo lo n = 0 ∨ bits lo lo n = 1 := by
  rw [bits_self]
  exact Nat.mod_two_eq_zero_or_one _

theorem bits_zero (hi n : Nat) : bits hi 0 n = n % 2 ^ (hi + 1) := by
  rw [bits, pow_zero, Nat.div_one, Nat.sub_zero]

theorem bits_self_eq_zero (w : Word) (i : Nat) : (bits i i w.toNat == 0) = !w.getLsbD i := by
  rw [BitVec.getLsbD, Nat.testBit_eq_decide_div_mod_eq, ← bits_self]
  rcases bits_self_zero_or_one i w.toNat with h | h <;> rw [h] <;> rfl

theorem regField_val (lo n : Nat) : (regField lo n).val = n / 2 ^ lo % 32 := by
  rw [regField, bits, Nat.add_sub_cancel_left]
  exact Nat.mod_mod _ _

/-- A register field names an even register exactly when its lowest bit is 0. -/
theorem regField_isEven (lo n : Nat) : Reg.isEven (regField lo n) = (bits lo lo n == 0) := by
  rw [Reg.isEven, regField_val, Nat.mod_mod_of_dvd _ (by decide), bits_self]

/-- A word is built from its own OP, RD and RS1 and from the RS2 and D that make up its low half. -/
theorem fieldsWord_eq_self {w : Word} {rs2 : Reg} {d : Bool}
    (h : w.toNat % 2 ^ 16 = 2 ^ 11 * rs2.val + 2 ^ 10 * (bif d then 1 else 0)) :
    fieldsWord (bits 31 26 w.toNat) (regField 21 w.toNat) (regField 16 w.toNat) rs2 d = w := by
  apply BitVec.eq_of_toNat_eq
  rw [fieldsWord_toNat (show bits 31 26 w.toNat < 64 from Nat.mod_lt _ (by decide)), regField_val, regField_val, bits_op]
  omega

/-- The word built from the fields that a format has, as they stand in `n`, its fixed-zero fields 0 (R112). -/
def Format.refill (op n : Nat) : Format → Word
  | .r3 => fieldsWord op (regField 21 n) (regField 16 n) (regField 11 n) false
  | .r3d => fieldsWord op (regField 21 n) (regField 16 n) (regField 11 n) (bits 10 10 n == 1)
  | .r2 => fieldsWord op (regField 21 n) (regField 16 n) 0 false
  | .p3 => fieldsWord op (regField 21 n) (regField 16 n) (regField 11 n) false
  | .p2 => fieldsWord op (regField 21 n) (regField 16 n) 0 false

/-- A word whose fixed-zero fields are 0 is the word of the other fields. -/
theorem Format.refill_self {fmt : Format} {w : Word} (h : fmt.fixedZero w.toNat = 0) :
    fmt.refill (bits 31 26 w.toNat) w.toNat = w := by
  have hrs2 := regField_val 11 w.toNat
  have hd : 2 ^ 10 * (bif bits 10 10 w.toNat == 1 then 1 else 0) = 2 ^ 10 * bits 10 10 w.toNat := by
    rcases bits_self_zero_or_one 10 w.toNat with h | h <;> rw [h] <;> rfl
  cases fmt with
  | r3 | p3 =>
    have h : bits 10 0 w.toNat = 0 := h
    rw [bits_zero] at h
    refine fieldsWord_eq_self ?_
    rw [cond_false]
    omega
  | r3d =>
    have h : bits 9 0 w.toNat = 0 := h
    rw [bits_zero] at h
    refine fieldsWord_eq_self ?_
    rw [hd, bits_self]
    omega
  | r2 | p2 => exact fieldsWord_eq_self ((bits_zero 15 _).symm.trans h)

/-- The registers that name pairs in a format, as they stand in `n` (R112). -/
def Format.pairFields (n : Nat) : Format → List Reg
  | .r3 => []
  | .r3d => bif bits 10 10 n == 1 then [regField 21 n, regField 16 n, regField 11 n] else []
  | .r2 => []
  | .p3 => [regField 21 n, regField 16 n, regField 11 n]
  | .p2 => [regField 21 n, regField 16 n]

/-- Check 3 of R118 is that the registers that name pairs are even. -/
theorem Format.pairsEven_eq (fmt : Format) (n : Nat) : fmt.pairsEven n = (fmt.pairFields n).all Reg.isEven := by
  cases fmt with
  | r3 | r2 => rfl
  | p3 | p2 => simp [Format.pairsEven, Format.pairFields, regField_isEven, Bool.and_assoc]
  | r3d =>
    rcases bits_self_zero_or_one 10 n with h | h <;>
      simp [Format.pairsEven, Format.pairFields, regField_isEven, h, Bool.and_assoc]

/-! ### What Decode does with a word -/

/-- What Decode can answer for a word (R118): its OP is in no row of the opcode map, or checks 2 and 3 stand before the
command of its row, whose operands are the word's fields. -/
inductive DecodeCase (w : Word) (D : Decoded) : Prop where
  | illegal (hop : bits 31 26 w.toNat ∉ opcodeMap.map Prod.fst) (e : D = .reject .illegalOpcode)
  | row (i : Instr) (fmt : Format) (e : D = gate fmt w.toNat i) (hop : bits 31 26 w.toNat = i.opcode)
      (hfmt : i.format = fmt) (henc : encode i = fmt.refill i.opcode w.toNat)
      (hpairs : i.pairFields = fmt.pairFields w.toNat)

theorem decode_cases (w : Word) : DecodeCase w (decode w) := by
  unfold decode
  dsimp only
  split
  case h_26 => exact .illegal (by simp_all [opcodeMap]) rfl
  all_goals
    refine .row _ _ rfl ?_ rfl rfl rfl
    assumption

theorem opcode_format_mem (i : Instr) : (i.opcode, i.format) ∈ opcodeMap := by
  cases i <;> simp [Instr.opcode, Instr.format, opcodeMap]

/-- The opcode map has one format for each OP. -/
theorem opcodeMap_functional : ∀ r ∈ opcodeMap, ∀ r' ∈ opcodeMap, r.1 = r'.1 → r.2 = r'.2 := by decide

/-- Settles O3: a word that passes check 2 is refilled from its fields, and check 3 is the command's well-formedness. -/
theorem encodeOfDecode : Obligations.EncodeOfDecode := by
  intro w i h
  cases decode_cases w with
  | illegal _ e => cases h.symm.trans e
  | row j fmt e hop _ henc hpairs =>
    obtain ⟨hzero, heven, rfl⟩ := gate_eq_cmd.1 (e.symm.trans h)
    exact ⟨by rw [henc, ← hop, Format.refill_self hzero], by rw [Instr.wf, hpairs, ← Format.pairsEven_eq, heven]⟩

/-! ### The three checks -/

/-- The lowest k bits of a word are 0 exactly when 2^k divides it. -/
theorem and_lowOnes_eq_zero (w : Word) {k : Nat} (hk : k ≤ 32) :
    w &&& BitVec.ofNat 32 (2 ^ k - 1) = 0 ↔ w.toNat % 2 ^ k = 0 := by
  have hlt : 2 ^ k - 1 < 2 ^ 32 :=
    (Nat.sub_lt (Nat.two_pow_pos k) Nat.one_pos).trans_le (Nat.pow_le_pow_right (by decide) hk)
  rw [← BitVec.toNat_inj, BitVec.toNat_and, BitVec.toNat_ofNat, Nat.mod_eq_of_lt hlt, Nat.and_two_pow_sub_one_eq_mod]
  rfl

/-- Check 2 of R118 is that the bits R115 masks are 0. -/
theorem and_zeroMask_eq_zero (fmt : Format) (w : Word) : w &&& zeroMask fmt = 0 ↔ fmt.fixedZero w.toNat = 0 := by
  cases fmt with
  | r3 | p3 => exact (and_lowOnes_eq_zero w (k := 11) (by decide)).trans (by rw [Format.fixedZero, bits_zero])
  | r3d => exact (and_lowOnes_eq_zero w (k := 10) (by decide)).trans (by rw [Format.fixedZero, bits_zero])
  | r2 | p2 => exact (and_lowOnes_eq_zero w (k := 16) (by decide)).trans (by rw [Format.fixedZero, bits_zero])

/-- Check 3 of R118 fails exactly when a pair is named by an odd register (60_exceptions.md R264). -/
theorem namesOddPair_eq (fmt : Format) (w : Word) : namesOddPair fmt w = !fmt.pairsEven w.toNat := by
  cases fmt <;> simp [namesOddPair, Format.pairsEven, bits_self_eq_zero, Bool.not_and, Bool.not_or]

theorem gate_reservedBits {fmt : Format} {n : Nat} (i : Instr) (h : fmt.fixedZero n ≠ 0) :
    gate fmt n i = .reject .reservedBits := if_neg h

theorem gate_misalignedPair {fmt : Format} {n : Nat} (i : Instr) (h : fmt.fixedZero n = 0)
    (hp : fmt.pairsEven n = false) : gate fmt n i = .reject .misalignedPair := by
  rw [gate, if_pos h, if_neg (by simp [hp])]

/-- Settles O4: the row that the word's OP selects is the opcode map's, and `gate` applies checks 2 and 3 in order. -/
theorem decodeChecksInOrder : Obligations.DecodeChecksInOrder := by
  intro w
  dsimp only
  rw [← bits_op]
  cases decode_cases w with
  | illegal hop e => exact ⟨fun _ => e, fun fmt hm => absurd (List.mem_map_of_mem hm) hop⟩
  | row i fmt e hop hfmt =>
    have hmem := opcode_format_mem i
    rw [hop, e]
    refine ⟨fun hn => absurd (List.mem_map_of_mem hmem) hn, fun fmt' hm => ?_⟩
    obtain rfl : fmt = fmt' := hfmt.symm.trans (opcodeMap_functional _ hmem _ hm rfl)
    rw [ne_eq, and_zeroMask_eq_zero, namesOddPair_eq, Bool.not_eq_true', Bool.not_eq_false']
    exact ⟨gate_reservedBits i, gate_misalignedPair i, fun hz hp => ⟨i, gate_eq_cmd.2 ⟨hz, hp, rfl⟩, rfl, hfmt⟩⟩

/-! ### The word of a command -/

/-- The word of every command has its opcode and passes check 2. -/
theorem encodedFields : ∀ i : Instr, EncodedFields.Statement i
  | .mpadd .. => EncodedFields.mpadd ..
  | .mpsub .. => EncodedFields.mpsub ..
  | .mpshl1 .. => EncodedFields.mpshl1 ..
  | .mpshr1 .. => EncodedFields.mpshr1 ..
  | .fmul .. => EncodedFields.fmul ..
  | .fsqr .. => EncodedFields.fsqr ..
  | .ftom .. => EncodedFields.ftom ..
  | .ffromm .. => EncodedFields.ffromm ..
  | .fcorr .. => EncodedFields.fcorr ..
  | .fadd .. => EncodedFields.fadd ..
  | .fsub .. => EncodedFields.fsub ..
  | .fneg .. => EncodedFields.fneg ..
  | .fhalf .. => EncodedFields.fhalf ..
  | .finvc .. => EncodedFields.finvc ..
  | .finv .. => EncodedFields.finv ..
  | .f2add .. => EncodedFields.f2add ..
  | .f2sub .. => EncodedFields.f2sub ..
  | .f2neg .. => EncodedFields.f2neg ..
  | .f2half .. => EncodedFields.f2half ..
  | .f2corr .. => EncodedFields.f2corr ..
  | .f2mul .. => EncodedFields.f2mul ..
  | .f2sqr .. => EncodedFields.f2sqr ..
  | .f2inv .. => EncodedFields.f2inv ..
  | .f2tom .. => EncodedFields.f2tom ..
  | .f2fromm .. => EncodedFields.f2fromm ..

/-- The word of a command selects the command's row, with the command's own operands. -/
theorem decode_encode_eq_gate (i : Instr) : decode (encode i) = gate i.format (encode i).toNat i := by
  cases i <;>
    simp [encode, decode, Instr.opcode, Instr.format, fieldsWord_op, fieldsWord_rd, fieldsWord_rs1, fieldsWord_rs2,
      fieldsWord_d]

/-- The word of a command passes check 3 exactly when the command is well formed. -/
theorem pairsEven_encode (i : Instr) : i.format.pairsEven (encode i).toNat = i.wf := by
  rw [Format.pairsEven_eq, Instr.wf]
  congr 1
  cases i <;>
    simp [Format.pairFields, Instr.pairFields, encode, Instr.opcode, Instr.format, fieldsWord_rd, fieldsWord_rs1,
      fieldsWord_rs2, fieldsWord_d]

/-- Settles O2: the word of a command selects the command's row, reads back as its operands and passes checks 2 and 3. -/
theorem decodeOfEncode : Obligations.DecodeOfEncode := by
  intro i hi
  obtain ⟨_, hzero⟩ := encodedFields i
  rw [decode_encode_eq_gate, gate_eq_cmd]
  exact ⟨hzero, (pairsEven_encode i).trans hi, rfl⟩

/-- Settles O1: fixed words, evaluated. -/
theorem specWordsDecode : Obligations.SpecWordsDecode := by
  unfold Obligations.SpecWordsDecode
  decide

end Sys2Proof
end

section
/-! The multiprecision commands (40_multiprecision.md R140 to R144): the state each leaves at its completion. -/

namespace Sys2Proof.Machine

/-! ### Operands and destinations of MPADD and MPSUB -/

/-- An operand fits in the width of the operation (40_multiprecision.md R140). -/
theorem mpOperand_lt {s : State} (h : s.Inv) (double : Bool) (r : Reg) :
    s.mpOperand double r < 2 ^ mpBits s.build double := by
  cases double with
  | false => exact h.f r
  | true => exact (double_lt h.f r).trans_eq (two_pow_mpBits_true s.build).symm

/-- The double-width operand, its low half first. -/
theorem double_eq (s : State) (r : Reg) : s.double r = s.reg r + s.reg (r + 1) * s.build.radix := Nat.add_comm _ _

/-- Fields that all name pairs by even registers pass the check of 60_exceptions.md R264. -/
theorem any_oddReg_of_even {rd rs1 rs2 : Reg} (hd : rd.val % 2 = 0) (h1 : rs1.val % 2 = 0) (h2 : rs2.val % 2 = 0) :
    [rd, rs1, rs2].any oddReg = false := by
  simp [oddReg, hd, h1, h2]

/-- A ready CORE runs a command that issues destinations and a value of C, once its pair fields pass their check. -/
theorem runsTo_of_issue_carry {i : Instr} {s : State} {pairs : List Reg} (ds : List (Reg × Nat)) {c : Bool}
    (hi : exec i s = issue s pairs false ⟨ds, some c⟩) (hs : s.Ready) (hp : pairs.any oddReg = false) :
    RunsTo i s (s.finished (writeDests ds s).f c) :=
  runsTo_of_issue hi hs hp nofun

/-! ### MPADD -/

/-- MPADD writes the sum modulo 2^n, n the width of its operands, and C is the carry out of n bits (R141). -/
theorem runsTo_mpadd {s : State} {double : Bool} {rd rs1 rs2 : Reg} (hs : s.Ready)
    (hp : (Instr.mpadd double rd rs1 rs2).pairFields.any oddReg = false) :
    let sum := s.mpOperand double rs1 + s.mpOperand double rs2
    RunsTo (.mpadd double rd rs1 rs2) s
      (s.finished (writeDests (destMp s.build double rd (sum % 2 ^ mpBits s.build double)) s).f
        (decide (2 ^ mpBits s.build double ≤ sum))) := by
  intro sum
  rw [← carryOut_eq]
  exact runsTo_of_issue_carry _ rfl hs hp

/-- Settles O33: the carry out of n bits is the sum's reaching 2^n, and the low half of the sum modulo R^2 is the sum
modulo R. -/
theorem mpaddResult : Obligations.MpaddResult := by
  intro s rd rs1 rs2 hs
  refine ⟨runsTo_mpadd (double := false) hs rfl, fun hd h1 h2 => ?_⟩
  have h := runsTo_mpadd (double := true) hs (any_oddReg_of_even hd h1 h2)
  simp only [State.mpOperand, destMp, cond_true, two_pow_mpBits_true, double_eq, writeDests_destPair] at h
  rwa [Nat.mod_mod_of_dvd _ (dvd_pow_self _ two_ne_zero)] at h

/-! ### MPSUB -/

/-- MPSUB writes the difference, 2^n higher when it borrows, n the width of its operands, and C is the borrow (R142). -/
theorem runsTo_mpsub {s : State} {double : Bool} {rd rs1 rs2 : Reg} (hi : s.Inv) (hs : s.Ready)
    (hp : (Instr.mpsub double rd rs1 rs2).pairFields.any oddReg = false) :
    let a := s.mpOperand double rs1
    let b := s.mpOperand double rs2
    RunsTo (.mpsub double rd rs1 rs2) s
      (s.finished
        (writeDests (destMp s.build double rd (if b ≤ a then a - b else a + 2 ^ mpBits s.build double - b)) s).f
        (decide (a < b))) := by
  intro a b
  rw [← mpDiff_fst (mpOperand_lt hi double rs1) (mpOperand_lt hi double rs2)]
  exact runsTo_of_issue_carry _ rfl hs hp

/-- Settles O34: under the invariant the operands fit in n bits, so the wrapped difference is at most one 2^n away. -/
theorem mpsubResult : Obligations.MpsubResult := by
  intro s rd rs1 rs2 hi hs
  refine ⟨runsTo_mpsub (double := false) hi hs rfl, fun hd h1 h2 => ?_⟩
  have h := runsTo_mpsub (double := true) hi hs (any_oddReg_of_even hd h1 h2)
  simp only [State.mpOperand, destMp, cond_true, two_pow_mpBits_true, double_eq, writeDests_destPair] at h
  exact h

/-! ### MPSHL1 and MPSHR1 -/

/-- Doubling an element value modulo R subtracts R at most once. -/
theorem two_mul_mod_radix {b : Build} {a : Nat} (ha : a < b.radix) :
    2 * a % b.radix = if b.radix ≤ 2 * a then 2 * a - b.radix else 2 * a := by
  split_ifs with h
  · rw [Nat.mod_eq_sub_mod h, Nat.mod_eq_of_lt (by omega)]
  · exact Nat.mod_eq_of_lt (Nat.lt_of_not_le h)

/-- Settles O35: under the invariant the top bit is 1 exactly when doubling reaches R, which is then subtracted once. -/
theorem mpShiftResults : Obligations.MpShiftResults := by
  intro s rd rs1 hi hs
  refine ⟨?_, ?_⟩
  · rw [← two_mul_mod_radix (hi.f rs1), ← topBitOut_eq hi.build (hi.f rs1)]
    exact runsTo_of_issue_carry (destOne rd _) rfl hs rfl
  · exact runsTo_of_issue_carry (destOne rd _) rfl hs rfl

end Sys2Proof.Machine
end

section
/-! The arithmetic of the Montgomery multiplier (41_montgomery.md R161 to R164, R172): the bounds of the running T, what
MontRed computes in the domain p*R, and the laws of MontMul modulo p. -/

namespace Sys2Proof.Machine

variable {b : Build} {k : Constants}

/-! ### The reduction loop -/

/-- n steps add less than 2^(w*n) times P to T, whatever the constants are (R161): each m_i is a word. -/
theorem montRedLoop_add_p_le (b : Build) (k : Constants) (n t : Nat) :
    montRedLoop b k n t + k.p ≤ t + 2 ^ (b.w * n) * k.p := by
  induction n with
  | zero => simp [montRedLoop]
  | succ n ih =>
    generalize hx : wordAt b (montRedLoop b k n t) n * k.pprime = x
    have hm : x % 2 ^ b.w + 1 ≤ 2 ^ b.w := Nat.mod_lt _ (Nat.two_pow_pos _)
    calc montRedLoop b k (n + 1) t + k.p
        = montRedLoop b k n t + k.p + x % 2 ^ b.w * k.p * 2 ^ (b.w * n) := by
          rw [montRedLoop, montRedStep, hx, Nat.add_right_comm]
      _ ≤ t + 2 ^ (b.w * n) * k.p + x % 2 ^ b.w * k.p * 2 ^ (b.w * n) := Nat.add_le_add_right ih _
      _ = t + 2 ^ (b.w * n) * (x % 2 ^ b.w + 1) * k.p := by ring
      _ ≤ t + 2 ^ (b.w * n) * 2 ^ b.w * k.p := by gcongr
      _ = t + 2 ^ (b.w * (n + 1)) * k.p := by rw [Nat.mul_succ, pow_add]

/-- The running T of a reduction exceeds the T it starts from by at most R*P (R161). -/
theorem montRedLoop_le {n : Nat} (hn : n ≤ b.words) (t : Nat) : montRedLoop b k n t ≤ t + b.radix * k.p :=
  calc montRedLoop b k n t ≤ t + 2 ^ (b.w * n) * k.p := (Nat.le_add_right _ _).trans (montRedLoop_add_p_le b k n t)
    _ ≤ t + b.radix * k.p := by
      rw [radix_eq]
      gcongr
      exact one_le_two

/-- Settles O42: T and m are the loop's own, and the sum of the m_i is below R, so that T grows by at most R*P. -/
theorem montRedIsWordSerial : Obligations.MontRedIsWordSerial := by
  intro b k t
  refine ⟨fun n => montRedLoop b k n t, fun i => wordAt b (montRedLoop b k i t) i * k.pprime % 2 ^ b.w, rfl,
    fun i _ => ⟨rfl, rfl⟩, rfl, fun ht i hi => ?_, fun hp => ?_, fun hh ht => ?_⟩
  · exact (montRedLoop_le hi t).trans (Nat.add_le_add_right ht.le _)
  · rw [two_mul, sq]
    exact Nat.add_lt_add_left (Nat.mul_lt_mul_of_pos_left hp (radix_pos b)) _
  · calc montRedLoop b k b.words t ≤ t + b.radix * k.p := montRedLoop_le le_rfl t
      _ ≤ k.p * b.radix + b.radix * k.p := Nat.add_le_add_right ht.le _
      _ = b.radix * (2 * k.p) := by ring
      _ ≤ b.radix * (4 * k.p) := by gcongr; omega
      _ < b.radix ^ 2 := by rw [sq]; exact Nat.mul_lt_mul_of_pos_left hh.four (radix_pos b)

/-! ### MontRed in the domain p*R -/

/-- In the domain p*R the quotient of the reduction is below 2p, so that it needs no truncation (R164 item 1):
MontRed(T)*R = T + M*P with M < R. -/
theorem montRed_of_domain (hh : Headroom b k) (hc : Consistent b k) {t : Nat} (ht : t < k.p * b.radix) :
    montRed b k t < 2 * k.p ∧ ∃ m < b.radix, montRed b k t * b.radix = t + m * k.p := by
  obtain ⟨m, q, hm, hq, hr⟩ := montRed_spec b k hc.pprime t
  have hlt : q < 2 * k.p := Nat.lt_of_mul_lt_mul_right <|
    calc q * b.radix = t + m * k.p := hq.symm
      _ < k.p * b.radix + b.radix * k.p := Nat.add_lt_add_of_lt_of_le ht (Nat.mul_le_mul_right _ hm.le)
      _ = 2 * k.p * b.radix := by ring
  rw [hr, Nat.mod_eq_of_lt (by have := hh.four; omega)]
  exact ⟨hlt, m, hm, hq.symm⟩

/-- MontRed(T) is below 2p in the domain p*R (R164 item 1). -/
theorem montRed_lt_two_p (hh : Headroom b k) (hc : Consistent b k) {t : Nat} (ht : t < k.p * b.radix) :
    montRed b k t < 2 * k.p :=
  (montRed_of_domain hh hc ht).1

/-- MontRed divides by R modulo p in the domain p*R (R164 item 2). -/
theorem montRed_mul_radix_modEq (hh : Headroom b k) (hc : Consistent b k) {t : Nat} (ht : t < k.p * b.radix) :
    montRed b k t * b.radix ≡ t [MOD k.p] := by
  obtain ⟨-, m, -, he⟩ := montRed_of_domain hh hc ht
  rw [he]
  exact Nat.add_mul_mod_self_right t m k.p

/-- Settles O43, from the exact quotient. -/
theorem montRedReduces : Obligations.MontRedReduces :=
  fun _ _ _ hh hc ht => ⟨montRed_lt_two_p hh hc ht, montRed_mul_radix_modEq hh hc ht⟩

/-- An odd p has no factor in common with the power R of 2 (R11). -/
theorem Headroom.coprime (hh : Headroom b k) : k.p.Coprime b.radix :=
  (Nat.odd_iff.2 hh.odd).coprime_two_right.pow_right _

/-- A single-width value is in the domain p*R. -/
theorem Headroom.domain_of_lt_radix (hh : Headroom b k) {t : Nat} (ht : t < b.radix) : t < k.p * b.radix :=
  ht.trans_le (Nat.le_mul_of_pos_left _ (by have := hh.three; omega))

/-- Settles O44: MontRed(T)*R = T + M*P with M < R, and p divides MontRed(T) exactly when it divides T. -/
theorem montRedOfSingleWidth : Obligations.MontRedOfSingleWidth := by
  intro b k t hh hc ht
  obtain ⟨-, m, hm, he⟩ := montRed_of_domain hh hc (hh.domain_of_lt_radix ht)
  have hp := hh.three
  have hle : montRed b k t ≤ k.p := Nat.le_of_lt_succ <| Nat.lt_of_mul_lt_mul_right <|
    calc montRed b k t * b.radix = t + m * k.p := he
      _ < b.radix + b.radix * k.p := Nat.add_lt_add_of_lt_of_le ht (Nat.mul_le_mul_right _ hm.le)
      _ = k.p.succ * b.radix := by rw [Nat.succ_mul, Nat.add_comm, Nat.mul_comm]
  have hdvd : k.p ∣ t ↔ k.p ∣ montRed b k t := by
    rw [← Nat.dvd_add_left (Nat.dvd_mul_left k.p m), ← he, hh.coprime.dvd_mul_right]
  refine ⟨hle, fun h => ⟨?_, hdvd.2 (by rw [h])⟩, fun ⟨h0, hd⟩ => ?_⟩
  · rintro rfl
    rw [h, Nat.zero_add, Nat.mul_comm m] at he
    exact hm.ne (Nat.eq_of_mul_eq_mul_left (by omega) he).symm
  · refine hle.antisymm (Nat.le_of_dvd (Nat.pos_of_ne_zero fun hz => h0 ?_) (hdvd.1 hd))
    rw [hz, Nat.zero_mul] at he
    omega

/-! ### Corr -/

/-- A stage of Corr subtracts P from a value that reaches it (R163). -/
theorem corrStage_eq (k : Constants) (x : Nat) : corrStage k x = if k.p ≤ x then x - k.p else x := by
  unfold corrStage
  split_ifs <;> omega

/-- One stage reduces a value below 2p (R164 item 4). -/
theorem corrStage_eq_mod {x : Nat} (h : x < 2 * k.p) : corrStage k x = x % k.p := by
  rw [corrStage_eq]
  split_ifs with hx
  · rw [Nat.mod_eq_sub_mod hx, Nat.mod_eq_of_lt (by omega)]
  · rw [Nat.mod_eq_of_lt (by omega)]

/-- The two stages reduce a value below 3p (R164 item 4). -/
theorem corr_eq_mod {x : Nat} (h : x < 3 * k.p) : corr k x = x % k.p := by
  have h1 : corrStage k x < 2 * k.p ∧ corrStage k x % k.p = x % k.p := by
    rw [corrStage_eq]
    split_ifs with hx
    · exact ⟨by omega, (Nat.mod_eq_sub_mod hx).symm⟩
    · exact ⟨by omega, rfl⟩
  rw [corr, corrStage_eq_mod h1.1, h1.2]

/-- Values below 2p that agree modulo p are equal after correction. -/
theorem corr_eq_of_modEq {x y : Nat} (hx : x < 2 * k.p) (hy : y < 2 * k.p) (h : x ≡ y [MOD k.p]) :
    corr k x = corr k y := by
  rw [corr_eq_mod (by omega), corr_eq_mod (by omega)]
  exact h

theorem montMul_comm (b : Build) (k : Constants) (x y : Nat) : montMul b k x y = montMul b k y x := by
  rw [montMul, Nat.mul_comm, montMul]

/-- Settles O45: Corr is the remainder modulo p below 3p, and one stage is already that below 2p. -/
theorem corrAndCommutativity : Obligations.CorrAndCommutativity := by
  refine ⟨fun k x hx => ⟨?_, ?_, fun hx2 => ?_⟩, montMul_comm⟩
  · rw [corr_eq_mod hx]
    exact Nat.mod_lt _ (by omega)
  · rw [corr_eq_mod hx, Nat.mod_mod]
  · rw [corr_eq_mod hx, ← corrStage_eq_mod hx2, corrStage_eq]

/-! ### MontMul on the relaxed range [0, 2p) -/

/-- The product of two relaxed values is in the domain p*R, since 4p < R (R11). -/
theorem Headroom.mul_domain (hh : Headroom b k) {x y : Nat} (hx : x < 2 * k.p) (hy : y < 2 * k.p) :
    x * y < k.p * b.radix :=
  calc x * y < 2 * k.p * (2 * k.p) := Nat.mul_lt_mul'' hx hy
    _ = k.p * (4 * k.p) := by ring
    _ ≤ k.p * b.radix := Nat.mul_le_mul_left _ hh.four.le

/-- R2 is a canonical value (R160). -/
theorem r2_lt_p (hh : Headroom b k) (hc : Consistent b k) : k.r2 < k.p := by
  rw [hc.r2]
  exact Nat.mod_lt _ (by have := hh.three; omega)

/-- MontMul keeps the relaxed range (R164 item 1). -/
theorem montMul_lt_two_p (hh : Headroom b k) (hc : Consistent b k) {x y : Nat} (hx : x < 2 * k.p) (hy : y < 2 * k.p) :
    montMul b k x y < 2 * k.p :=
  montRed_lt_two_p hh hc (hh.mul_domain hx hy)

/-- MontMul is the product with the factor R^(-1) (R164 item 2). -/
theorem montMul_mul_radix_modEq (hh : Headroom b k) (hc : Consistent b k) {x y : Nat} (hx : x < 2 * k.p)
    (hy : y < 2 * k.p) : montMul b k x y * b.radix ≡ x * y [MOD k.p] :=
  montRed_mul_radix_modEq hh hc (hh.mul_domain hx hy)

/-- R cancels modulo p. -/
theorem Headroom.cancel_radix (hh : Headroom b k) {x y : Nat} (h : x * b.radix ≡ y * b.radix [MOD k.p]) :
    x ≡ y [MOD k.p] :=
  Nat.ModEq.cancel_right_of_coprime hh.coprime h

/-- The property of `montMul_mul_radix_modEq` fixes the value modulo p. -/
theorem montMul_modEq_of_mul_radix (hh : Headroom b k) (hc : Consistent b k) {x y z : Nat} (hx : x < 2 * k.p)
    (hy : y < 2 * k.p) (h : x * y ≡ z * b.radix [MOD k.p]) : montMul b k x y ≡ z [MOD k.p] :=
  hh.cancel_radix ((montMul_mul_radix_modEq hh hc hx hy).trans h)

/-- Multiplying by R2 takes a value to its Montgomery form (R167). -/
theorem montMul_r2_modEq (hh : Headroom b k) (hc : Consistent b k) {a : Nat} (ha : a < 2 * k.p) :
    montMul b k a k.r2 ≡ a * b.radix [MOD k.p] := by
  refine montMul_modEq_of_mul_radix hh hc ha (by have := r2_lt_p hh hc; omega) ?_
  calc a * k.r2 ≡ a * b.radix ^ 2 [MOD k.p] := by
        rw [hc.r2]
        exact (Nat.mod_modEq _ _).mul_left a
    _ = a * b.radix * b.radix := by ring

/-- MontMul is associative modulo p: both sides are x*y*z with the factor R^(-2). -/
theorem montMul_assoc_modEq (hh : Headroom b k) (hc : Consistent b k) {x y z : Nat} (hx : x < 2 * k.p)
    (hy : y < 2 * k.p) (hz : z < 2 * k.p) :
    montMul b k (montMul b k x y) z ≡ montMul b k x (montMul b k y z) [MOD k.p] := by
  refine montMul_modEq_of_mul_radix hh hc (montMul_lt_two_p hh hc hx hy) hz (hh.cancel_radix ?_)
  have hxy := montMul_mul_radix_modEq hh hc hx hy
  have hyz := montMul_mul_radix_modEq hh hc hy hz
  have hx_yz := montMul_mul_radix_modEq hh hc hx (montMul_lt_two_p hh hc hy hz)
  calc montMul b k x y * z * b.radix = montMul b k x y * b.radix * z := Nat.mul_right_comm ..
    _ ≡ x * y * z [MOD k.p] := hxy.mul_right z
    _ = x * (y * z) := Nat.mul_assoc ..
    _ ≡ x * (montMul b k y z * b.radix) [MOD k.p] := (hyz.mul_left x).symm
    _ = x * montMul b k y z * b.radix := (Nat.mul_assoc ..).symm
    _ ≡ montMul b k x (montMul b k y z) * b.radix * b.radix [MOD k.p] := (hx_yz.mul_right _).symm

/-- FTOM and then FFROMM give the value back (R172). -/
theorem corr_montRed_montMul_r2 (hh : Headroom b k) (hc : Consistent b k) {a : Nat} (ha : a < k.p) :
    corr k (montRed b k (montMul b k a k.r2)) = a := by
  have hr := r2_lt_p hh hc
  have hd : montMul b k a k.r2 < k.p * b.radix := hh.domain_of_lt_radix (montMul_lt b k a k.r2)
  have h : montRed b k (montMul b k a k.r2) ≡ a [MOD k.p] :=
    hh.cancel_radix ((montRed_mul_radix_modEq hh hc hd).trans (montMul_r2_modEq hh hc (by omega)))
  rw [corr_eq_mod (by have := montRed_lt_two_p hh hc hd; omega), h, Nat.mod_eq_of_lt ha]

/-- The Montgomery form of 1 is an identity of MontMul modulo p (R172). -/
theorem montMul_one_modEq (hh : Headroom b k) (hc : Consistent b k) {x : Nat} (hx : x < 2 * k.p) :
    montMul b k (montMul b k 1 k.r2) x ≡ x [MOD k.p] := by
  have hp := hh.three
  have hr := r2_lt_p hh hc
  refine montMul_modEq_of_mul_radix hh hc (montMul_lt_two_p hh hc (by omega) (by omega)) hx ?_
  calc montMul b k 1 k.r2 * x ≡ 1 * b.radix * x [MOD k.p] := (montMul_r2_modEq hh hc (by omega)).mul_right x
    _ = x * b.radix := by ring

/-- Settles O47: each law holds modulo p, on values below 2p, where Corr is the remainder modulo p. -/
theorem montgomeryDomainLaws : Obligations.MontgomeryDomainLaws := by
  intro b k hh hc
  have hp := hh.three
  have hr := r2_lt_p hh hc
  have hlt {x y : Nat} (hx : x < 2 * k.p) (hy : y < 2 * k.p) := montMul_lt_two_p hh hc hx hy
  refine ⟨fun a ha => corr_montRed_montMul_r2 hh hc ha, fun a ha => ?_, fun x y z hx hy hz => ?_⟩
  · have hform : montMul b k a k.r2 < 2 * k.p := hlt (by omega) (by omega)
    exact corr_eq_of_modEq (hlt (hlt (by omega) (by omega)) hform) hform (montMul_one_modEq hh hc hform)
  · exact corr_eq_of_modEq (hlt (hlt hx hy) hz) (hlt hx (hlt hy hz)) (montMul_assoc_modEq hh hc hx hy hz)

end Sys2Proof.Machine
end

section
/-! The Montgomery multiplier's commands (41_montgomery.md R165 to R169): the state each leaves at its completion. -/

namespace Sys2Proof.Machine

/-- A ready CORE runs a command that issues one element value and names no pair: it writes that value and leaves C. -/
theorem runsTo_fieldResult {i : Instr} {s : State} {rd : Reg} {v : Nat}
    (hi : exec i s = issue s [] false (fieldResult rd v)) (hs : s.Ready) :
    RunsTo i s (s.finished (s.f.set rd.val v) s.status.c) :=
  runsTo_of_issue hi hs rfl nofun

/-- Settles O36: each command issues a MontMul, which is the MontRed of the product. -/
theorem montgomeryMultiplyResults : Obligations.MontgomeryMultiplyResults :=
  fun _ _ _ _ hs => ⟨runsTo_fieldResult rfl hs, runsTo_fieldResult rfl hs, runsTo_fieldResult rfl hs⟩

/-- Settles O37: both commands issue a Corr, whose two stages are the two conditional subtractions. -/
theorem correctionResults : Obligations.CorrectionResults := by
  intro s rd rs1 hs
  simp only [← corrStage_eq]
  exact ⟨runsTo_fieldResult rfl hs, runsTo_fieldResult rfl hs⟩

end Sys2Proof.Machine
end

section
/-! The modular adder/subtractor (42_field_addsub.md R190 to R198): ModAdd, ModSub and ModNeg by the comparison that selects
their result, their values on the relaxed range [0,2p), and the state each command leaves at its completion. -/

namespace Sys2Proof.Machine

variable {b : Build} {k : Constants}

/-! ### By the comparison of the operands -/

/-- ModAdd subtracts 2P from a sum that reaches it (R190). -/
theorem modAdd_eq (b : Build) (k : Constants) (x y : Nat) :
    modAdd b k x y = (if 2 * k.p ≤ x + y then x + y - 2 * k.p else x + y) % b.radix := by
  simp only [modAdd, ← not_lt, ite_not]

/-- ModSub is the difference, or the difference plus 2P modulo R when it borrows (R191). -/
theorem modSub_eq (b : Build) (k : Constants) (x y : Nat) :
    modSub b k x y = if y ≤ x then (x - y) % b.radix else (((x : Int) - y + 2 * k.p) % (b.radix : Int)).toNat := by
  have hborrow : (x : Int) - y < 0 ↔ ¬ y ≤ x := by omega
  simp only [modSub, hborrow, ite_not]
  split_ifs with hle
  · rw [← Nat.cast_sub hle, ← Int.natCast_mod, Int.toNat_natCast]
  · rfl

/-- ModNeg maps 0 to 0 and any other value to its difference from 2P, modulo R (R192). -/
theorem modNeg_eq (b : Build) (k : Constants) (x : Nat) :
    modNeg b k x = if x = 0 then 0 else ((2 * (k.p : Int) - x) % (b.radix : Int)).toNat := by
  rw [modNeg, modSub_eq, Nat.zero_sub, Nat.zero_mod, Nat.cast_zero, zero_sub, neg_add_eq_sub]
  simp only [Nat.le_zero]

/-- Settles O38: each command issues its datapath function, whose comparison the result spells out. -/
theorem addSubResults : Obligations.AddSubResults := by
  intro s rd rs1 rs2 hs
  simp only [← modAdd_eq, ← modSub_eq, ← modNeg_eq]
  exact ⟨runsTo_fieldResult rfl hs, runsTo_fieldResult rfl hs, runsTo_fieldResult rfl hs, runsTo_fieldResult rfl hs⟩

/-! ### On the relaxed range [0, 2p): nothing wraps, since 4p < R (R11) -/

theorem modAdd_of_relaxed (hh : Headroom b k) {x y : Nat} (hx : x < 2 * k.p) (hy : y < 2 * k.p) :
    modAdd b k x y = if 2 * k.p ≤ x + y then x + y - 2 * k.p else x + y := by
  have h4 := hh.four
  rw [modAdd_eq, Nat.mod_eq_of_lt (by split_ifs <;> omega)]

theorem modSub_of_relaxed (hh : Headroom b k) {x y : Nat} (hx : x < 2 * k.p) (hy : y < 2 * k.p) :
    modSub b k x y = if y ≤ x then x - y else x + 2 * k.p - y := by
  have h4 := hh.four
  rw [modSub_eq]
  split_ifs with hle
  · exact Nat.mod_eq_of_lt (by omega)
  · rw [Int.emod_eq_of_lt (by omega) (by omega)]
    omega

theorem half_of_relaxed (hh : Headroom b k) {x : Nat} (hx : x < 2 * k.p) :
    half b k x = (if x % 2 = 1 then x + k.p else x) / 2 := by
  have h4 := hh.four
  rw [half, Nat.mod_eq_of_lt (by split_ifs <;> omega)]

/-- ModAdd is addition modulo p on the relaxed range (R194 item 1). -/
theorem modAdd_relaxed (hh : Headroom b k) {x y : Nat} (hx : x < 2 * k.p) (hy : y < 2 * k.p) :
    modAdd b k x y < 2 * k.p ∧ modAdd b k x y ≡ x + y [MOD k.p] := by
  rw [modAdd_of_relaxed hh hx hy]
  split_ifs with hle
  · refine ⟨by omega, ?_⟩
    calc x + y - 2 * k.p ≡ x + y - 2 * k.p + 2 * k.p [MOD k.p] := (Nat.add_mul_mod_self_right ..).symm
      _ = x + y := Nat.sub_add_cancel hle
  · exact ⟨not_le.1 hle, rfl⟩

/-- ModSub is subtraction modulo p on the relaxed range (R194 item 2). -/
theorem modSub_relaxed (hh : Headroom b k) {x y : Nat} (hx : x < 2 * k.p) (hy : y < 2 * k.p) :
    modSub b k x y < 2 * k.p ∧ modSub b k x y + y ≡ x [MOD k.p] := by
  rw [modSub_of_relaxed hh hx hy]
  split_ifs with hle
  · exact ⟨by omega, by rw [Nat.sub_add_cancel hle]⟩
  · refine ⟨by omega, ?_⟩
    calc x + 2 * k.p - y + y = x + 2 * k.p := Nat.sub_add_cancel (by omega)
      _ ≡ x [MOD k.p] := Nat.add_mul_mod_self_right ..

/-- ModNeg is negation modulo p on the relaxed range, as a subtraction from 0 (R194 item 3). -/
theorem modNeg_relaxed (hh : Headroom b k) {x : Nat} (hx : x < 2 * k.p) :
    modNeg b k x < 2 * k.p ∧ modNeg b k x + x ≡ 0 [MOD k.p] :=
  modSub_relaxed hh (Nat.zero_lt_of_lt hx) hx

/-- Half is halving modulo p on the relaxed range: an odd value becomes even by adding the odd P (R194 item 4). -/
theorem half_relaxed (hh : Headroom b k) {x : Nat} (hx : x < 2 * k.p) :
    half b k x < 2 * k.p ∧ 2 * half b k x ≡ x [MOD k.p] := by
  have hp := hh.odd
  rw [half_of_relaxed hh hx]
  split_ifs with hodd
  · refine ⟨by omega, ?_⟩
    calc 2 * ((x + k.p) / 2) = x + k.p := by omega
      _ ≡ x [MOD k.p] := Nat.add_mod_right ..
  · exact ⟨by omega, by rw [Nat.mul_div_cancel' (by omega)]⟩

/-- Settles O46, one function at a time. -/
theorem relaxedRangeIsClosed : Obligations.RelaxedRangeIsClosed :=
  fun _ _ _ _ hh hx hy => ⟨modAdd_relaxed hh hx hy, modSub_relaxed hh hx hy, modNeg_relaxed hh hx, half_relaxed hh hx⟩

end Sys2Proof.Machine
end

section
/-! The inversion engine (43_inversion.md R211 to R220): Chain as the interpreter of its table, one induction over Chain and
Inv for every property that MontMul adds up in the exponent, and what follows for the powers, the inverse and zero. -/

namespace Sys2Proof.Machine

variable {b : Build} {k : Constants}

/-- A ready CORE with a valid table runs an inversion command that issues one element value: it writes that value and
leaves C. -/
theorem runsTo_inversion {i : Instr} {s : State} {rd : Reg} {v : Nat}
    (hi : exec i s = issue s [] true (fieldResult rd v)) (hs : s.Ready) (hv : s.chain.valid = true) :
    RunsTo i s (s.finished (s.f.set rd.val v) s.status.c) :=
  runsTo_of_issue hi hs rfl fun _ => hv

/-- Settles O39: FINVC issues Chain of the operand and FINV Inv of it. -/
theorem inversionResults : Obligations.InversionResults :=
  fun _ _ _ hs hv => ⟨runsTo_inversion rfl hs hv, runsTo_inversion rfl hs hv⟩

/-! ### Chain as an interpreter -/

theorem squarings_eq_iterate (n acc : Nat) : squarings b k n acc = (fun x => montMul b k x x)^[n] acc := by
  induction n generalizing acc with
  | zero => rfl
  | succ n ih => exact ih _

theorem powerAt_powers (sq : Nat) {n j : Nat} (hj : j ≤ n) (x : Nat) :
    powerAt (powers b k sq n x) j = (fun y => montMul b k y sq)^[j] x := by
  induction n generalizing j x with
  | zero =>
    obtain rfl := Nat.le_zero.1 hj
    rfl
  | succ n ih =>
    cases j with
    | zero => rfl
    | succ j => exact ih (Nat.le_of_succ_le_succ hj) _

/-- The table of powers starts at a (R211). -/
theorem powerAt_powerTable_zero (t : ChainTable) (a : Nat) : powerAt (powerTable b k t a) 0 = a :=
  powerAt_powers _ (Nat.zero_le _) a

/-- Each further power is the one before it times a^2 (R211). -/
theorem powerAt_powerTable_succ (t : ChainTable) (a : Nat) {j : Nat} (hj : j + 1 < t.npow.toNat) :
    powerAt (powerTable b k t a) (j + 1) = montMul b k (powerAt (powerTable b k t a) j) (montMul b k a a) := by
  rw [powerTable, powerAt_powers _ (by omega), powerAt_powers _ (by omega), Function.iterate_succ_apply']

/-- The accumulator of Chain after the first n steps of the table (R212). -/
def chainAcc (b : Build) (k : Constants) (t : ChainTable) (a n : Nat) : Nat :=
  (t.steps.toList.take n).foldl (chainStep b k (powerTable b k t a)) (powerAt (powerTable b k t a) t.j0.toNat)

theorem chain_eq_chainAcc (t : ChainTable) (a : Nat) : chain b k t a = chainAcc b k t a t.nsteps.toNat := rfl

theorem chainAcc_succ (t : ChainTable) (a : Nat) (i : Fin 256) :
    chainAcc b k t a (i + 1) = chainStep b k (powerTable b k t a) (chainAcc b k t a i) t.steps[i.val] := by
  have hi : i.val < t.steps.toList.length := by simp
  rw [chainAcc, List.take_add_one, List.getElem?_eq_getElem hi, List.foldl_append]
  rfl

/-- Settles O48: the powers are those of the power table, and the accumulator is `chainAcc`. -/
theorem chainIsTheInterpreter : Obligations.ChainIsTheInterpreter := by
  intro b k t a _
  refine ⟨powerAt (powerTable b k t a), chainAcc b k t a, powerAt_powerTable_zero t a,
    fun j hj => powerAt_powerTable_succ t a hj, rfl, fun i _ => ?_, chain_eq_chainAcc t a⟩
  rw [chainAcc_succ, chainStep, squarings_eq_iterate]

/-! ### The exponent of the table -/

/-- `P e v` says that v is a value with the exponent e; it is a power law when MontMul adds the exponents. -/
def PowerLaw (b : Build) (k : Constants) (P : Nat → Nat → Prop) : Prop :=
  ∀ ⦃d e x y : Nat⦄, P d x → P e y → P (d + e) (montMul b k x y)

namespace PowerLaw

variable {P : Nat → Nat → Prop} (hP : PowerLaw b k P)
include hP

/-- A squaring doubles the exponent. -/
theorem holds_square {e x : Nat} (h : P e x) : P (2 * e) (montMul b k x x) := by
  rw [two_mul]
  exact hP h h

/-- The odd powers have the odd exponents (R211). -/
theorem holds_powerAt {t : ChainTable} {a : Nat} (ha : P 1 a) {j : Nat} (hj : j < t.npow.toNat) :
    P (2 * j + 1) (powerAt (powerTable b k t a) j) := by
  induction j with
  | zero => rwa [powerAt_powerTable_zero]
  | succ j ih =>
    rw [powerAt_powerTable_succ t a hj, Nat.mul_succ, Nat.add_right_comm]
    exact hP (ih (by omega)) (hP.holds_square ha)

theorem holds_squarings {e acc : Nat} (h : P e acc) (n : Nat) : P (e * 2 ^ n) (squarings b k n acc) := by
  induction n generalizing e acc with
  | zero => rwa [pow_zero, mul_one]
  | succ n ih =>
    rw [pow_succ', ← mul_assoc, mul_comm e]
    exact ih (hP.holds_square h)

/-- A list of chain steps of a valid table takes the exponent where `exponentFrom` says (R212, R214). -/
theorem holds_foldl_chainStep {t : ChainTable} {a e acc : Nat} (ha : P 1 a) {l : List ChainStep}
    (hl : ∀ st ∈ l, st.j.toNat < t.npow.toNat ∨ st.j = 0xFF) (h : P e acc) :
    P (exponentFrom e l) (l.foldl (chainStep b k (powerTable b k t a)) acc) := by
  induction l generalizing e acc with
  | nil => exact h
  | cons st l ih =>
    refine ih (fun st' hm => hl st' (List.mem_cons_of_mem _ hm)) ?_
    have hsq := hP.holds_squarings h st.k.toNat
    by_cases hj : st.j = 0xFF
    · simpa only [chainStep, if_pos hj, add_zero] using hsq
    · simpa only [chainStep, if_neg hj] using
        hP hsq (hP.holds_powerAt ha ((hl st List.mem_cons_self).resolve_right hj))

/-- Chain has the table's exponent (R214). -/
theorem holds_chain {t : ChainTable} {a : Nat} (hv : t.valid = true) (ha : P 1 a) : P t.exponent (chain b k t a) := by
  obtain ⟨-, hj0, -, hsteps⟩ := (valid_iff t).1 hv
  rw [← forall_mem_take_steps t _ fun st => st.j.toNat < t.npow.toNat ∨ st.j = 0xFF] at hsteps
  exact hP.holds_foldl_chainStep ha hsteps (hP.holds_powerAt ha hj0)

/-- Inv has four times the table's exponent, and one more (R214). -/
theorem holds_inv {t : ChainTable} {a : Nat} (hv : t.valid = true) (ha : P 1 a) :
    P (4 * t.exponent + 1) (inv b k t a) := by
  have h := hP (hP.holds_square (hP.holds_square (hP.holds_chain hv ha))) ha
  rwa [← mul_assoc] at h

end PowerLaw

/-! ### The powers in Montgomery form -/

/-- v is the Montgomery form of the power x^e, in the relaxed range. -/
def MontPower (b : Build) (k : Constants) (x e v : Nat) : Prop := v < 2 * k.p ∧ v ≡ x ^ e * b.radix [MOD k.p]

/-- MontMul multiplies powers of x (R164, R219). -/
theorem montPower_powerLaw (hh : Headroom b k) (hc : Consistent b k) (x : Nat) : PowerLaw b k (MontPower b k x) := by
  rintro d e v w ⟨hv, hvx⟩ ⟨hw, hwx⟩
  refine ⟨montMul_lt_two_p hh hc hv hw, montMul_modEq_of_mul_radix hh hc hv hw ?_⟩
  calc v * w ≡ x ^ d * b.radix * (x ^ e * b.radix) [MOD k.p] := hvx.mul hwx
    _ = x ^ (d + e) * b.radix * b.radix := by ring

/-- Settles O49: MontPower is a power law, and a is the first power. -/
theorem chainComputesThePower : Obligations.ChainComputesThePower := by
  intro b k t a x hh hc hv ha hx
  have h1 : MontPower b k x 1 a := ⟨ha, by rwa [pow_one]⟩
  have hP := montPower_powerLaw hh hc x
  exact ⟨hP.holds_chain hv h1, hP.holds_inv hv h1⟩

/-! ### The inverse -/

/-- R214's use of Fermat's little theorem: with E = (p-3)/4 the exponent 4E + 1 of Inv is that of the inverse. -/
theorem mul_pow_inv_exponent_modEq_one (hh : Headroom b k) (hp : k.p.Prime) {e x : Nat} (he : e = (k.p - 3) / 4)
    (hx : ¬ k.p ∣ x) : x * x ^ (4 * e + 1) ≡ 1 [MOD k.p] := by
  have hcard : 4 * e + 1 + 1 = Nat.totient k.p := by
    have h3 := hh.three
    have h4 := hh.threeModFour
    rw [Nat.totient_prime hp]
    omega
  rw [← pow_succ', hcard]
  exact Nat.ModEq.pow_totient ((hp.coprime_iff_not_dvd.2 hx).symm)

/-- Settles O50: a is the form of x = MontRed(a), Inv(a) that of the inverse of x, and their product that of 1. -/
theorem finvInverts : Obligations.FinvInverts := by
  intro b k t a hh hc hp hv he ha hdvd
  have h3 := hh.three
  have h4 := hh.four
  have hr := r2_lt_p hh hc
  obtain ⟨x, hx⟩ : ∃ x, x * b.radix ≡ a [MOD k.p] :=
    ⟨montRed b k a, montRed_mul_radix_modEq hh hc (hh.domain_of_lt_radix (by omega))⟩
  have hpx : ¬ k.p ∣ x := fun h => hdvd ((hx.dvd_iff dvd_rfl).1 (h.mul_right _))
  obtain ⟨-, hlt, hinv⟩ := chainComputesThePower b k t a x hh hc hv ha hx.symm
  have hprod : a * inv b k t a ≡ 1 * b.radix * b.radix [MOD k.p] :=
    calc a * inv b k t a ≡ x * b.radix * (x ^ (4 * t.exponent + 1) * b.radix) [MOD k.p] := hx.symm.mul hinv
      _ = x * x ^ (4 * t.exponent + 1) * b.radix * b.radix := by ring
      _ ≡ 1 * b.radix * b.radix [MOD k.p] :=
        ((mul_pow_inv_exponent_modEq_one hh hp he hpx).mul_right _).mul_right _
  refine corr_eq_of_modEq (montMul_lt_two_p hh hc ha hlt) (montMul_lt_two_p hh hc (by omega) (by omega)) ?_
  exact (montMul_modEq_of_mul_radix hh hc ha hlt hprod).trans (montMul_r2_modEq hh hc (by omega)).symm

/-! ### Zero and p -/

theorem montRedLoop_zero (b : Build) (k : Constants) (n : Nat) : montRedLoop b k n 0 = 0 := by
  induction n with
  | zero => rfl
  | succ n ih => simp [montRedLoop, ih, montRedStep, wordAt]

theorem montRed_zero (b : Build) (k : Constants) : montRed b k 0 = 0 := by
  rw [montRed, montRedLoop_zero, Nat.zero_div, Nat.zero_mod]

@[simp] theorem montMul_zero_left (b : Build) (k : Constants) (y : Nat) : montMul b k 0 y = 0 := by
  rw [montMul, Nat.zero_mul, montRed_zero]

@[simp] theorem montMul_zero_right (b : Build) (k : Constants) (x : Nat) : montMul b k x 0 = 0 := by
  rw [montMul_comm, montMul_zero_left]

/-- The product of p with itself is the multiple of p between 0 and 2p (R217). -/
theorem montMul_p_p (hh : Headroom b k) (hc : Consistent b k) : montMul b k k.p k.p = k.p := by
  have h3 := hh.three
  have hp : k.p < 2 * k.p := by omega
  obtain ⟨hlt, m, -, he⟩ := montRed_of_domain hh hc (hh.mul_domain hp hp)
  have hdvd : k.p ∣ montMul b k k.p k.p :=
    hh.coprime.dvd_of_dvd_mul_right (he ▸ (Nat.dvd_mul_left _ _).add (Nat.dvd_mul_left _ _))
  have hne : montMul b k k.p k.p ≠ 0 := fun h0 => by
    rw [← montMul, h0, Nat.zero_mul] at he
    have : 0 < k.p * k.p := Nat.mul_pos (by omega) (by omega)
    omega
  exact Nat.eq_of_dvd_of_lt_two_mul hne hdvd hlt

theorem modNeg_zero (b : Build) (k : Constants) : modNeg b k 0 = 0 := by
  rw [modNeg_eq, if_pos rfl]

/-- p is its own negative modulo 2p (R192). -/
theorem modNeg_p (hh : Headroom b k) : modNeg b k k.p = k.p := by
  have h3 := hh.three
  rw [modNeg, modSub_of_relaxed hh (by omega) (by omega), if_neg (by omega)]
  omega

/-- The norm 2p of the pair (p, p) is reduced to 0 (R190). -/
theorem modAdd_p_p (hh : Headroom b k) : modAdd b k k.p k.p = 0 := by
  have h3 := hh.three
  rw [modAdd_of_relaxed hh (by omega) (by omega), if_pos (by omega)]
  omega

/-- A value whose product with itself is itself stays what it is in Chain and Inv. -/
theorem powerLaw_of_idempotent {z : Nat} (h : montMul b k z z = z) : PowerLaw b k fun _ v => v = z := by
  rintro _ _ _ _ rfl rfl
  exact h

/-- Settles O51: 0 and p are idempotent, and in F2INV the norm of the pair is 0 or p. -/
theorem invertingZero : Obligations.InvertingZero := by
  intro b k t hh hc hv
  have h3 := hh.three
  have hpp := montMul_p_p hh hc
  have h0 := powerLaw_of_idempotent (montMul_zero_left b k 0)
  have hp := powerLaw_of_idempotent hpp
  have hinv0 : inv b k t 0 = 0 := h0.holds_inv hv rfl
  have hinvp : inv b k t k.p = k.p := hp.holds_inv hv rfl
  refine ⟨h0.holds_chain hv rfl, hinv0, hp.holds_chain hv rfl, hinvp, ?_, ?_, ?_, ?_⟩
  · simp (disch := omega) [fp2Inv, modAdd_of_relaxed hh, hinv0]
  · simp (disch := omega) [fp2Inv, modAdd_of_relaxed hh, hpp, hinvp, modNeg_zero]
  · simp (disch := omega) [fp2Inv, modAdd_of_relaxed hh, hpp, hinvp, modNeg_p hh]
  · simp [fp2Inv, hpp, modAdd_p_p hh, hinv0]

end Sys2Proof.Machine
end

section
/-! The GF(p²) operator's commands (44_gfp2.md R231 to R240): the state each leaves at its completion. -/

namespace Sys2Proof.Machine

/-- A ready CORE runs a command that issues a pair and needs no chain table, once its pair fields pass their check: it
writes both components and leaves C. -/
theorem runsTo_pairResult {i : Instr} {s : State} {pairs : List Reg} {rd : Reg} {c0 c1 : Nat}
    (hi : exec i s = issue s pairs false (pairResult rd (c0, c1))) (hs : s.Ready) (hp : pairs.any oddReg = false) :
    RunsTo i s (s.finished ((s.f.set rd.val c0).set (rd + 1).val c1) s.status.c) :=
  runsTo_of_issue hi hs hp nofun

/-- Two fields that name pairs by even registers pass the check of 60_exceptions.md R264. -/
theorem any_oddReg_of_even_two {rd rs1 : Reg} (hd : rd.val % 2 = 0) (h1 : rs1.val % 2 = 0) :
    [rd, rs1].any oddReg = false := by
  simp [oddReg, hd, h1]

/-- Settles O40: each command issues its base function on both components. -/
theorem componentwiseResults : Obligations.ComponentwiseResults := by
  intro s rd rs1 rs2 hs hd h1 h2
  have hp3 := any_oddReg_of_even hd h1 h2
  have hp2 := any_oddReg_of_even_two hd h1
  exact ⟨runsTo_pairResult rfl hs hp3, runsTo_pairResult rfl hs hp3, runsTo_pairResult rfl hs hp2,
    runsTo_pairResult rfl hs hp2, runsTo_pairResult rfl hs hp2, runsTo_pairResult rfl hs hp2,
    runsTo_pairResult rfl hs hp2⟩

/-- Settles O41: each command issues its sequence, and F2INV's check of the chain table passes. -/
theorem gfp2MultiplicativeResults : Obligations.Gfp2MultiplicativeResults := by
  intro s rd rs1 rs2 hs hd h1 h2
  have hp2 := any_oddReg_of_even_two hd h1
  refine ⟨runsTo_pairResult rfl hs (any_oddReg_of_even hd h1 h2), runsTo_pairResult rfl hs hp2, fun hv => ?_⟩
  exact runsTo_of_issue (r := pairResult rd (fp2Inv s.build s.consts s.chain (s.pair rs1))) rfl hs hp2 fun _ => hv

end Sys2Proof.Machine
end

section
/-! The arithmetic of GF(p²) (44_gfp2.md R241): the base-field functions as operations of the ring ZMod p, the sequences
of F2MUL, F2SQR and F2INV in that ring, and the norm of a pair that is not zero modulo p. -/

namespace Sys2Proof.Machine

variable {b : Build} {k : Constants}

/-! ### The base-field functions in ZMod p -/

theorem cast_modAdd (hh : Headroom b k) {x y : Nat} (hx : x < 2 * k.p) (hy : y < 2 * k.p) :
    (modAdd b k x y : ZMod k.p) = x + y := by
  exact_mod_cast (ZMod.natCast_eq_natCast_iff ..).2 (modAdd_relaxed hh hx hy).2

theorem cast_modSub (hh : Headroom b k) {x y : Nat} (hx : x < 2 * k.p) (hy : y < 2 * k.p) :
    (modSub b k x y : ZMod k.p) = x - y := by
  rw [eq_sub_iff_add_eq]
  exact_mod_cast (ZMod.natCast_eq_natCast_iff ..).2 (modSub_relaxed hh hx hy).2

theorem cast_modNeg (hh : Headroom b k) {x : Nat} (hx : x < 2 * k.p) : (modNeg b k x : ZMod k.p) = -x := by
  rw [modNeg, cast_modSub hh (Nat.zero_lt_of_lt hx) hx, Nat.cast_zero, zero_sub]

theorem cast_montMul_mul_radix (hh : Headroom b k) (hc : Consistent b k) {x y : Nat} (hx : x < 2 * k.p)
    (hy : y < 2 * k.p) : (montMul b k x y : ZMod k.p) * b.radix = x * y := by
  exact_mod_cast (ZMod.natCast_eq_natCast_iff ..).2 (montMul_mul_radix_modEq hh hc hx hy)

/-- R cancels in ZMod p. -/
theorem Headroom.isUnit_radix (hh : Headroom b k) : IsUnit (b.radix : ZMod k.p) :=
  (ZMod.isUnit_iff_coprime ..).2 hh.coprime.symm

/-- Values below 2p that are equal in ZMod p when multiplied by R are equal after correction. -/
theorem corr_eq_of_cast_mul_radix (hh : Headroom b k) {x y : Nat} (hx : x < 2 * k.p) (hy : y < 2 * k.p)
    (h : (x : ZMod k.p) * b.radix = y * b.radix) : corr k x = corr k y :=
  corr_eq_of_modEq hx hy ((ZMod.natCast_eq_natCast_iff ..).1 (hh.isUnit_radix.mul_right_cancel h))

/-! ### F2MUL and F2SQR -/

/-- Both components are in the relaxed range [0, 2p). -/
structure RelaxedPair (k : Constants) (x : Nat × Nat) : Prop where
  fst : x.1 < 2 * k.p
  snd : x.2 < 2 * k.p

/-- F2MUL keeps the relaxed range (R241 item 1). -/
theorem fp2Mul_relaxed (hh : Headroom b k) (hc : Consistent b k) {x y : Nat × Nat} (hx : RelaxedPair k x)
    (hy : RelaxedPair k y) : RelaxedPair k (fp2Mul b k x y) := by
  have h0 := montMul_lt_two_p hh hc hx.fst hy.fst
  have h1 := montMul_lt_two_p hh hc hx.snd hy.snd
  have h2 := montMul_lt_two_p hh hc (modAdd_relaxed hh hx.fst hx.snd).1 (modAdd_relaxed hh hy.fst hy.snd).1
  exact ⟨(modSub_relaxed hh h0 h1).1, (modSub_relaxed hh (modSub_relaxed hh h2 h0).1 h1).1⟩

/-- F2MUL computes the product of GF(p²) with the factor R^(-1) (R241 item 2). -/
theorem cast_fp2Mul_mul_radix (hh : Headroom b k) (hc : Consistent b k) {x y : Nat × Nat} (hx : RelaxedPair k x)
    (hy : RelaxedPair k y) :
    ((fp2Mul b k x y).1 : ZMod k.p) * b.radix = x.1 * y.1 - x.2 * y.2 ∧
      ((fp2Mul b k x y).2 : ZMod k.p) * b.radix = x.1 * y.2 + x.2 * y.1 := by
  obtain ⟨hx1, hx2⟩ := hx
  obtain ⟨hy1, hy2⟩ := hy
  have hsx := (modAdd_relaxed hh hx1 hx2).1
  have hsy := (modAdd_relaxed hh hy1 hy2).1
  have h0 := montMul_lt_two_p hh hc hx1 hy1
  have h1 := montMul_lt_two_p hh hc hx2 hy2
  have h2 := montMul_lt_two_p hh hc hsx hsy
  have e0 := cast_montMul_mul_radix hh hc hx1 hy1
  have e1 := cast_montMul_mul_radix hh hc hx2 hy2
  have e2 := cast_montMul_mul_radix hh hc hsx hsy
  rw [cast_modAdd hh hx1 hx2, cast_modAdd hh hy1 hy2] at e2
  constructor
  · rw [fp2Mul, cast_modSub hh h0 h1]
    linear_combination e0 - e1
  · rw [fp2Mul, cast_modSub hh (modSub_relaxed hh h2 h0).1 h1, cast_modSub hh h2 h0]
    linear_combination e2 - e0 - e1

/-- F2SQR keeps the relaxed range (R241 item 1). -/
theorem fp2Sqr_relaxed (hh : Headroom b k) (hc : Consistent b k) {x : Nat × Nat} (hx : RelaxedPair k x) :
    RelaxedPair k (fp2Sqr b k x) :=
  ⟨montMul_lt_two_p hh hc (modAdd_relaxed hh hx.fst hx.snd).1 (modSub_relaxed hh hx.fst hx.snd).1,
    montMul_lt_two_p hh hc (modAdd_relaxed hh hx.fst hx.fst).1 hx.snd⟩

/-- F2SQR computes the square of GF(p²) with the factor R^(-1): (x0 + x1)(x0 - x1) and 2*x0*x1 (R237). -/
theorem cast_fp2Sqr_mul_radix (hh : Headroom b k) (hc : Consistent b k) {x : Nat × Nat} (hx : RelaxedPair k x) :
    ((fp2Sqr b k x).1 : ZMod k.p) * b.radix = x.1 * x.1 - x.2 * x.2 ∧
      ((fp2Sqr b k x).2 : ZMod k.p) * b.radix = x.1 * x.2 + x.2 * x.1 := by
  obtain ⟨h1, h2⟩ := hx
  constructor
  · rw [fp2Sqr, cast_montMul_mul_radix hh hc (modAdd_relaxed hh h1 h2).1 (modSub_relaxed hh h1 h2).1,
      cast_modAdd hh h1 h2, cast_modSub hh h1 h2]
    ring
  · rw [fp2Sqr, cast_montMul_mul_radix hh hc (modAdd_relaxed hh h1 h1).1 h2, cast_modAdd hh h1 h1]
    ring

/-- Settles O52: F2MUL and F2SQR have the product's value in ZMod p, on the relaxed range, where that fixes what Corr
gives. -/
theorem gfp2MultiplyIsCorrect : Obligations.Gfp2MultiplyIsCorrect := by
  intro b k x y hh hc hx1 hx2 hy1 hy2
  have hx : RelaxedPair k x := ⟨hx1, hx2⟩
  have hy : RelaxedPair k y := ⟨hy1, hy2⟩
  obtain ⟨hc1, hc2⟩ := fp2Mul_relaxed hh hc hx hy
  obtain ⟨hq1, hq2⟩ := fp2Sqr_relaxed hh hc hx
  obtain ⟨hm1, hm2⟩ := fp2Mul_relaxed hh hc hx hx
  obtain ⟨ec1, ec2⟩ := cast_fp2Mul_mul_radix hh hc hx hy
  obtain ⟨eq1, eq2⟩ := cast_fp2Sqr_mul_radix hh hc hx
  obtain ⟨em1, em2⟩ := cast_fp2Mul_mul_radix hh hc hx hx
  refine ⟨⟨hc1, hc2⟩, ?_, ?_, ⟨hq1, hq2⟩, corr_eq_of_cast_mul_radix hh hq1 hm1 (eq1.trans em1.symm),
    corr_eq_of_cast_mul_radix hh hq2 hm2 (eq2.trans em2.symm)⟩
  · rw [← ZMod.natCast_eq_natCast_iff]
    exact_mod_cast eq_sub_iff_add_eq.1 ec1
  · rw [← ZMod.natCast_eq_natCast_iff]
    exact_mod_cast ec2

/-! ### F2INV -/

/-- Inv keeps the relaxed range (43_inversion.md R219). -/
theorem inv_lt_two_p (hh : Headroom b k) (hc : Consistent b k) {t : ChainTable} (hv : t.valid = true) {a : Nat}
    (ha : a < 2 * k.p) : inv b k t a < 2 * k.p :=
  have hP : PowerLaw b k fun _ v => v < 2 * k.p := fun _ _ _ _ => montMul_lt_two_p hh hc
  hP.holds_inv hv ha

/-- The product of a nonzero value with its Inv is that of two Montgomery forms of 1 (43_inversion.md R220). -/
theorem cast_mul_inv (hh : Headroom b k) (hc : Consistent b k) (hp : k.p.Prime) {t : ChainTable}
    (hv : t.valid = true) (he : t.exponent = (k.p - 3) / 4) {a : Nat} (ha : a < 2 * k.p) (hdvd : ¬ k.p ∣ a) :
    (a : ZMod k.p) * inv b k t a = b.radix * b.radix := by
  have h3 := hh.three
  have hr := r2_lt_p hh hc
  have hi := inv_lt_two_p hh hc hv ha
  have hcorr := finvInverts b k t a hh hc hp hv he ha hdvd
  have hone : montMul b k a (inv b k t a) ≡ 1 * b.radix [MOD k.p] := by
    refine Nat.ModEq.trans ?_ (montMul_r2_modEq hh hc (a := 1) (by omega))
    rwa [corr_eq_mod ((montMul_lt_two_p hh hc ha hi).trans (by omega)),
      corr_eq_mod ((montMul_lt_two_p hh hc (by omega) (by omega)).trans (by omega))] at hcorr
  rw [← cast_montMul_mul_radix hh hc ha hi, (ZMod.natCast_eq_natCast_iff ..).2 hone, one_mul]

/-- With p ≡ 3 (mod 4) prime, -1 is no square, and a sum of two squares vanishes only when both do (R238). -/
theorem cast_sq_add_sq_ne_zero (hh : Headroom b k) (hp : k.p.Prime) {x y : Nat} (h : ¬ (k.p ∣ x ∧ k.p ∣ y)) :
    (x : ZMod k.p) * x + y * y ≠ 0 := by
  have := Fact.mk hp
  rw [← ZMod.natCast_eq_zero_iff, ← ZMod.natCast_eq_zero_iff] at h
  intro hsum
  rw [← sq, ← sq, add_eq_zero_iff_eq_neg] at hsum
  by_cases hy : (y : ZMod k.p) = 0
  · exact h ⟨by simpa [hy] using hsum, hy⟩
  · exact ZMod.mod_four_ne_three_of_sq_eq_neg_sq' hy hsum hh.threeModFour

/-- The norm of a pair, as the sequence of F2INV computes it (R238). -/
def fp2Norm (b : Build) (k : Constants) (x : Nat × Nat) : Nat := modAdd b k (montMul b k x.1 x.1) (montMul b k x.2 x.2)

theorem fp2Norm_lt_two_p (hh : Headroom b k) (hc : Consistent b k) {x : Nat × Nat} (hx : RelaxedPair k x) :
    fp2Norm b k x < 2 * k.p :=
  (modAdd_relaxed hh (montMul_lt_two_p hh hc hx.fst hx.fst) (montMul_lt_two_p hh hc hx.snd hx.snd)).1

/-- The norm is the sum of the squares with the factor R^(-1). -/
theorem cast_fp2Norm_mul_radix (hh : Headroom b k) (hc : Consistent b k) {x : Nat × Nat} (hx : RelaxedPair k x) :
    (fp2Norm b k x : ZMod k.p) * b.radix = x.1 * x.1 + x.2 * x.2 := by
  obtain ⟨h1, h2⟩ := hx
  rw [fp2Norm, cast_modAdd hh (montMul_lt_two_p hh hc h1 h1) (montMul_lt_two_p hh hc h2 h2), add_mul,
    cast_montMul_mul_radix hh hc h1 h1, cast_montMul_mul_radix hh hc h2 h2]

/-- The norm of a pair that is not zero modulo p is not zero modulo p (R238). -/
theorem not_dvd_fp2Norm (hh : Headroom b k) (hc : Consistent b k) (hp : k.p.Prime) {x : Nat × Nat}
    (hx : RelaxedPair k x) (h : ¬ (k.p ∣ x.1 ∧ k.p ∣ x.2)) : ¬ k.p ∣ fp2Norm b k x := fun hd =>
  cast_sq_add_sq_ne_zero hh hp h <| by
    rw [← cast_fp2Norm_mul_radix hh hc hx, (ZMod.natCast_eq_zero_iff ..).2 hd, zero_mul]

theorem fp2Inv_relaxed (hh : Headroom b k) (hc : Consistent b k) {t : ChainTable} (hv : t.valid = true)
    {x : Nat × Nat} (hx : RelaxedPair k x) : RelaxedPair k (fp2Inv b k t x) :=
  have hN : inv b k t (fp2Norm b k x) < 2 * k.p := inv_lt_two_p hh hc hv (fp2Norm_lt_two_p hh hc hx)
  ⟨montMul_lt_two_p hh hc hx.fst hN, montMul_lt_two_p hh hc (modNeg_relaxed hh hx.snd).1 hN⟩

/-- F2INV multiplies the conjugate (x0, -x1) by the Inv of the norm, with the factor R^(-1) (R238). -/
theorem cast_fp2Inv_mul_radix (hh : Headroom b k) (hc : Consistent b k) {t : ChainTable} (hv : t.valid = true)
    {x : Nat × Nat} (hx : RelaxedPair k x) :
    ((fp2Inv b k t x).1 : ZMod k.p) * b.radix = x.1 * inv b k t (fp2Norm b k x) ∧
      ((fp2Inv b k t x).2 : ZMod k.p) * b.radix = -x.2 * inv b k t (fp2Norm b k x) := by
  have hN := inv_lt_two_p hh hc hv (fp2Norm_lt_two_p hh hc hx)
  refine ⟨cast_montMul_mul_radix hh hc hx.fst hN, ?_⟩
  rw [← cast_modNeg hh hx.snd]
  exact cast_montMul_mul_radix hh hc (modNeg_relaxed hh hx.snd).1 hN

/-- F2MUL of a pair that is not zero modulo p with its F2INV is the Montgomery form of 1 (R241 item 4): the norm times
its Inv is R^2, and the cross products cancel. -/
theorem cast_fp2Mul_fp2Inv (hh : Headroom b k) (hc : Consistent b k) (hp : k.p.Prime) {t : ChainTable}
    (hv : t.valid = true) (he : t.exponent = (k.p - 3) / 4) {x : Nat × Nat} (hx : RelaxedPair k x)
    (h0 : ¬ (k.p ∣ x.1 ∧ k.p ∣ x.2)) :
    ((fp2Mul b k x (fp2Inv b k t x)).1 : ZMod k.p) = b.radix ∧
      ((fp2Mul b k x (fp2Inv b k t x)).2 : ZMod k.p) = 0 := by
  obtain ⟨e1, e2⟩ := cast_fp2Inv_mul_radix hh hc hv hx
  obtain ⟨ec1, ec2⟩ := cast_fp2Mul_mul_radix hh hc hx (fp2Inv_relaxed hh hc hv hx)
  have hnorm := cast_fp2Norm_mul_radix hh hc hx
  have hinv := cast_mul_inv hh hc hp hv he (fp2Norm_lt_two_p hh hc hx) (not_dvd_fp2Norm hh hc hp hx h0)
  have hR := hh.isUnit_radix.mul hh.isUnit_radix
  constructor
  · refine hR.mul_right_cancel ?_
    linear_combination b.radix * ec1 + x.1 * e1 - x.2 * e2 - inv b k t (fp2Norm b k x) * hnorm + b.radix * hinv
  · refine hR.mul_right_cancel ?_
    linear_combination b.radix * ec2 + x.1 * e2 + x.2 * e1

/-- Settles O53: the product is the pair (R, 0) in ZMod p, and Corr gives its remainders. -/
theorem f2invInverts : Obligations.F2invInverts := by
  intro b k t x hh hc hp hv he hx1 hx2 h0
  have hx : RelaxedPair k x := ⟨hx1, hx2⟩
  obtain ⟨hc1, hc2⟩ := fp2Mul_relaxed hh hc hx (fp2Inv_relaxed hh hc hv hx)
  obtain ⟨e1, e2⟩ := cast_fp2Mul_fp2Inv hh hc hp hv he hx h0
  refine ⟨?_, ?_⟩
  · rw [corr_eq_mod (hc1.trans (by omega))]
    exact (ZMod.natCast_eq_natCast_iff' ..).1 e1
  · rw [corr_eq_mod (hc2.trans (by omega))]
    exact Nat.mod_eq_zero_of_dvd ((ZMod.natCast_eq_zero_iff ..).1 e2)

end Sys2Proof.Machine
end

section
/-! Presenting a command (60_exceptions.md R260 to R268): what the checks of the front end and of `exec` come to in each
state, with one lemma per outcome, and that every outcome is a next state. -/

namespace Sys2Proof.Machine

/-- A command is ill-formed exactly when the check of its pair fields fails (60_exceptions.md R264). -/
theorem pairFields_any_oddReg_eq_not_wf (i : Instr) : i.pairFields.any oddReg = !i.wf := by
  have hodd (r : Reg) : oddReg r = !r.isEven := by
    unfold oddReg Reg.isEven
    rcases Nat.mod_two_eq_zero_or_one r.val with h | h <;> rw [h] <;> rfl
  rw [Instr.wf, List.not_all_eq_any_not]
  exact congrArg i.pairFields.any (funext hodd)

/-! ### The checks of `exec` (R261, R266) -/

/-- A command is rejected with the code of the first check it fails. -/
theorem rejects_of_admission {i : Instr} {s : State} {c : RejectCode}
    (h : admission s i.pairFields (profile i).chain = some c) : Rejects i s c := by
  obtain ⟨r, e, -⟩ := exec_issues i s
  rw [issue, h] at e
  exact e

theorem admission_busy {s : State} (pairs : List Reg) (u : Bool) (h : s.busy = true) :
    admission s pairs u = some .busy := by
  rw [admission, if_pos h]

theorem admission_unlocked {s : State} (pairs : List Reg) (u : Bool) (hb : s.busy = false) (hl : s.ctrl.lock = false) :
    admission s pairs u = some .notLocked := by
  simp [admission, hb, hl]

/-- A ready CORE accepts a well-formed command whose chain table, where it uses one, is valid. -/
theorem exec_accepts {i : Instr} {s : State} (hs : s.Ready) (hi : i.wf = true)
    (hc : (profile i).chain = true → s.chain.valid = true) : ∃ r, exec i s = .next (accept r s) := by
  obtain ⟨r, e, -⟩ := exec_issues i s
  exact ⟨r, e.trans (issue_accepts r hs (pairFields_any_oddReg hi) hc)⟩

/-- Settles O8: BUSY is the first of `exec`'s checks and NOT_LOCKED the second. -/
theorem busyOrUnlockedRejects : Obligations.BusyOrUnlockedRejects := fun _ _ =>
  ⟨fun hb => rejects_of_admission (admission_busy _ _ hb),
    fun hb hl => rejects_of_admission (admission_unlocked _ _ hb hl)⟩

/-- Settles O9: an ill-formed command fails the check of its pair fields, which comes before that of the chain table. -/
theorem oddPairRejects : Obligations.OddPairRejects := by
  intro i s hs hi
  have hp : i.pairFields.any oddReg = true := by rw [pairFields_any_oddReg_eq_not_wf, hi]; rfl
  obtain ⟨r, e, -⟩ := exec_issues i s
  exact e.trans (issue_misaligned _ r hs hp)

/-! ### The checks on a word written to CMD (R261 items 1 to 3) -/

theorem present_busy {s : State} (w : Word) (h : s.busy = true) : present w s = .next (reject .busy s) := by
  simp [present, frontEnd, h]

theorem present_unlocked {s : State} (w : Word) (hb : s.busy = false) (hl : s.ctrl.lock = false) :
    present w s = .next (reject .notLocked s) := by
  simp [present, frontEnd, hb, hl]

theorem present_undecodable {s : State} {w : Word} {c : RejectCode} (hs : s.Ready) (hd : decode w = .reject c) :
    present w s = .next (reject c s) := by
  obtain ⟨hb, hl⟩ := hs
  simp [present, frontEnd, hb, hl, hd]

theorem present_decoded {s : State} {w : Word} {i : Instr} (hs : s.Ready) (hd : decode w = .cmd i) :
    present w s = exec i s := by
  obtain ⟨hb, hl⟩ := hs
  simp [present, frontEnd, hb, hl, hd]

/-- Settles O5: taking the event and answering the write leave BUSY and LOCK as they are, so the word is decoded and run. -/
theorem stepRunsDecodedCommand : Obligations.StepRunsDecodedCommand := by
  intro s w i rest h hs hd
  have hs0 : ((takeEvent rest s).respond okayWrite).Ready := hs
  exact (step_cmdWrite h).trans (present_decoded hs0 hd)

/-- Settles O7: one case per check, in R261's order; a word that decodes is a well-formed command, so only the chain table
is left to check. -/
theorem acceptanceChecksInOrder : Obligations.AcceptanceChecksInOrder := by
  intro s w rest h s0 rejected
  have hstep : step s = present w s0 := step_cmdWrite h
  split_ifs with hb hl
  · exact hstep.trans (present_busy w hb)
  · exact hstep.trans (present_unlocked w (Bool.eq_false_of_not_eq_true hb) hl)
  · have hs0 : s0.Ready := ⟨Bool.eq_false_of_not_eq_true hb, Bool.eq_true_of_not_eq_false hl⟩
    split
    next c hd => exact hstep.trans (present_undecodable hs0 hd)
    next i hd =>
      have hrun : step s = exec i s0 := hstep.trans (present_decoded hs0 hd)
      have hi : i.wf = true := (encodeOfDecode w i hd).2
      split_ifs with hc
      · obtain ⟨hu, hv⟩ := hc
        exact hrun.trans (rejects_badChain hs0 (pairFields_any_oddReg hi) hu hv)
      · obtain ⟨r, hr⟩ := exec_accepts hs0 hi fun hu => Bool.eq_true_of_not_eq_false fun hv => hc ⟨hu, hv⟩
        exact ⟨r, hrun.trans hr⟩

/-! ### The loaded command (entry 11) -/

/-- All 32 bits of a word are table bits. -/
theorem tableWord_toNat (w : Word) : tableWord 32 w.toNat = w := by
  rw [tableWord, Nat.mod_eq_of_lt w.isLt, BitVec.ofNat_toNat, BitVec.setWidth_eq]

/-- The words taken for an inversion command's are those of the commands that read the chain table (R265). -/
theorem usesChainWord_of_decode {w : Word} {i : Instr} (hd : decode w = .cmd i) :
    usesChainWord w = (profile i).chain := by
  unfold usesChainWord
  rw [hd]
  cases i <;> rfl

/-- CHAIN_CFG = 0x0000_0001 makes any step registers a valid table: NPOW = 1, J0 = 0, and no step is in use
(10_state.md R39). -/
theorem valid_chainCfgWrite_one (t : ChainTable) : (chainCfgWrite 0x00000001 t).valid = true := by
  rw [valid_iff, chainCfgWrite_eq]
  simp

/-- The table a word's command is loaded with is valid where the command uses it. -/
theorem valid_runnableChain {w : Word} (t : ChainTable) (h : usesChainWord w = true) :
    (runnableChain w t).valid = true := by
  unfold runnableChain
  split_ifs with hc
  · exact valid_chainCfgWrite_one t
  · simpa [h] using hc

/-- Settles O6: the loaded state is idle and locked, and its chain table is valid where the command uses it. -/
theorem loadedCommandIsAccepted : Obligations.LoadedCommandIsAccepted := by
  intro s i hi
  have hd : decode (encode i) = .cmd i := decodeOfEncode i hi
  let s0 : State := (takeEvent s.script (loadCommand (encode i) s)).respond okayWrite
  have hs0 : s0.Ready := ⟨rfl, rfl⟩
  have hrun : step (s.withFetchWord 32 (encode i).toNat) = exec i s0 := by
    rw [State.withFetchWord, tableWord_toNat]
    exact (step_cmdWrite rfl).trans (present_decoded hs0 hd)
  obtain ⟨r, hr⟩ := exec_accepts hs0 hi fun hu =>
    valid_runnableChain s.chain ((usesChainWord_of_decode hd).trans hu)
  exact ⟨accept r s0, hrun.trans hr, rfl, rfl, rfl, rfl⟩

/-! ### Totality (R260, R268) -/

/-- `exec` answers a next state: it issues a result, which is rejected or accepted. -/
theorem exec_next (i : Instr) (s : State) : ∃ t, exec i s = .next t := by
  obtain ⟨r, e, -⟩ := exec_issues i s
  rcases issue_cases s i.pairFields (profile i).chain r with ⟨c, -, h⟩ | ⟨-, h⟩
  · exact ⟨_, e.trans h⟩
  · exact ⟨_, e.trans h⟩

theorem present_next (w : Word) (s : State) : ∃ t, present w s = .next t := by
  unfold present
  split
  · exact ⟨_, rfl⟩
  · exact exec_next _ _

theorem access_next (a : Access) (s : State) : ∃ t, access a s = .next t := by
  unfold access
  split
  · exact ⟨_, rfl⟩
  · exact present_next _ _

theorem step_next (s : State) : ∃ t, step s = .next t := by
  unfold step
  split
  · exact ⟨_, rfl⟩
  · exact ⟨_, rfl⟩
  · exact ⟨_, rfl⟩
  · exact access_next _ _

/-- Settles O11: neither `exec` nor `step` has a path to a fault or a refusal. -/
theorem nothingStopsTheMachine : Obligations.NothingStopsTheMachine := ⟨exec_next, step_next⟩

end Sys2Proof.Machine
end

section
/-! What a reset edge leaves (70_reset_and_hazards.md R290, R291), and what operand values have no effect on (R300,
60_exceptions.md R265): each thing a step can do takes two states with the same control to two such states. -/

namespace Sys2Proof.Machine

/-! ### The reset edge -/

/-- All that a reset edge leaves: the state after reset of the build, with the script, and where an access is presented at
it, the free values of its response used up (70_reset_and_hazards.md R290, R291). -/
theorem resetEdge_eq (a : Option Access) (s : State) : resetEdge a s =
    { State.resetOf s.build with
      script := s.script
      resp := a.bind (resetResponse · s.fresh)
      fresh := s.fresh + if a.isSome then 1 else 0 } := by
  cases a <;> rfl

/-- Settles O19: the edge leaves the state after reset, and an access presented at it shows in the response and the number
of the next free value alone. -/
theorem resetEdgeLeaves : Obligations.ResetEdgeLeaves := by
  intro s a rest h
  refine ⟨_, step_reset h, ?_⟩
  rw [resetEdge_eq]
  refine ⟨rfl, rfl, rfl, rfl, rfl, rfl, fun u hu => ?_⟩
  rw [step_reset rfl, resetEdge_eq] at hu
  cases hu
  rfl

/-! ### The shape of a command's result -/

/-- MPADD and MPSUB write one register, or a pair when D = 1 (40_multiprecision.md R141), whatever the value. -/
theorem destMp_map_fst (b : Build) (double : Bool) (rd : Reg) (v : Nat) :
    (destMp b double rd v).map Prod.fst = bif double then pairOf rd else [rd] := by
  cases double <;> rfl

/-- In any two states a command issues results of the same shape: the command alone fixes its destinations and whether it
writes C. -/
theorem exec_issues_same_shape (i : Instr) (s t : State) :
    ∃ r r', exec i s = issue s i.pairFields (profile i).chain r ∧ exec i t = issue t i.pairFields (profile i).chain r' ∧
      r.shape = r'.shape := by
  cases i with
  | mpadd | mpsub => exact ⟨_, _, rfl, rfl, by simp only [Result.shape, destMp_map_fst, Option.isSome_some]⟩
  | _ => exact ⟨_, _, rfl, rfl, rfl⟩

/-! ### Two states with the same control -/

/-- Every state has the same control as itself. -/
theorem SameControl.refl (s : State) : SameControl s s := ⟨rfl, rfl, rfl, rfl, rfl, rfl, rfl, rfl, rfl, rfl, rfl⟩

section Control
variable {s t : State} (h : SameControl s t)
include h

theorem SameControl.busy : s.busy = t.busy := by
  simpa only [State.busy, Option.isSome_map] using congrArg Option.isSome h.engine

theorem SameControl.irq : s.irq = t.irq := by rw [State.irq, h.done, h.err, h.ctrl, State.irq]

theorem SameControl.lock : s.ctrl.lock = t.ctrl.lock := congrArg Ctrl.lock h.ctrl

theorem SameControl.takeEvent (rest : List Event) : SameControl (takeEvent rest s) (takeEvent rest t) :=
  { h with resp := rfl, script := rfl }

/-- The answers may differ in their data. -/
theorem SameControl.respond {r r' : Response} (e : r.err = r'.err) : SameControl (s.respond r) (t.respond r') :=
  { h with resp := congrArg some e }

theorem SameControl.accept {r r' : Result} (e : r.shape = r'.shape) : SameControl (accept r s) (accept r' t) :=
  { h with engine := congrArg some e, done := rfl }

theorem SameControl.reject (c : RejectCode) : SameControl (reject c s) (reject c t) := by
  unfold Machine.reject
  rw [← h.err]
  split
  · exact h
  · exact { h with err := rfl, errcode := rfl }

/-- Completions leave the same control whatever they write. -/
theorem SameControl.complete (r r' : Result) : SameControl (complete r s) (complete r' t) := by
  rw [complete_eq, complete_eq]
  exact { h with engine := rfl, done := rfl }

/-- A command is in flight in both states or in neither. -/
theorem SameControl.engineTurn : SameControl (engineTurn s) (engineTurn t) := by
  have he := h.engine
  cases hs : s.engine with
  | none =>
    rw [hs, Option.map_none, eq_comm, Option.map_eq_none_iff] at he
    rwa [engineTurn_idle hs, engineTurn_idle he]
  | some r =>
    rw [hs, Option.map_some, eq_comm, Option.map_eq_some_iff] at he
    obtain ⟨r', ht, -⟩ := he
    rw [engineTurn_busy hs, engineTurn_busy ht]
    exact h.complete r r'

theorem SameControl.resetEdge (a : Option Access) : SameControl (resetEdge a s) (resetEdge a t) := by
  rw [resetEdge_eq, resetEdge_eq, h.build, h.script, h.fresh]
  exact SameControl.refl _

/-- What a write stores is a function of the word, of the build and, but for an F register, of what is there, which is the
same in both states. -/
theorem SameControl.writeTarget (T : Target) (v : Word) : SameControl (writeTarget T v s) (writeTarget T v t) := by
  cases T with
  | id | cfg0 | cfg1 | cmd | unmapped => exact h
  | f r k => exact { h with }
  | ctrl => exact { h with ctrl := congrArg (ctrlWrite v) h.ctrl }
  | status =>
    exact
      { h with
        done := congrArg (· && !v.getLsbD 1) h.done
        err := congrArg (· && !v.getLsbD 2) h.err
        errcode := congrArg (bif v.getLsbD 2 then none else ·) h.errcode }
  | chainCfg => exact { h with chain := congrArg (chainCfgWrite v) h.chain }
  | chainStep i => exact { h with chain := by simp only [Machine.writeTarget, h.chain] }
  | pprimeLo | pprimeHi | p | r2 => exact { h with consts := by simp only [Machine.writeTarget, h.build, h.consts] }

/-- A command is rejected in both states with one code, or accepted in both with results of one shape. -/
theorem SameControl.exec {i : Instr} {s' : State} (e : exec i s = .next s') :
    ∃ t', exec i t = .next t' ∧ SameControl s' t' := by
  obtain ⟨r, r', es, et, hr⟩ := exec_issues_same_shape i s t
  have adm : admission s i.pairFields (profile i).chain = admission t i.pairFields (profile i).chain :=
    admission_congr h.busy h.lock fun _ => congrArg ChainTable.valid h.chain
  rw [es, issue] at e
  rw [et, issue, ← adm]
  cases ha : admission s i.pairFields (profile i).chain with
  | some c =>
    rw [ha] at e
    cases e
    exact ⟨_, rfl, h.reject c⟩
  | none =>
    rw [ha] at e
    cases e
    exact ⟨_, rfl, h.accept hr⟩

/-- An access is refused in both states or in neither, and the front end finds the same in its word. -/
theorem SameControl.access {s' : State} {a : Access} {rest : List Event} (hscript : s.script = .access a :: rest)
    (e : AccessCase a (Machine.takeEvent rest s) s') : ∃ t', step t = .next t' ∧ SameControl s' t' := by
  have h0 := h.takeEvent rest
  have hst : t.script = .access a :: rest := h.script ▸ hscript
  have hft : a.failing (Machine.takeEvent rest s) = a.failing t := failing_congr a h0.busy h0.lock
  have front : frontEnd a.wdata (Machine.takeEvent rest s) =
      frontEnd a.wdata ((Machine.takeEvent rest t).respond okayWrite) := frontEnd_congr _ h0.busy h0.lock
  cases e with
  | slverr hf e =>
    rw [e]
    exact ⟨_, step_slverr hst (hft ▸ hf), h0.respond rfl⟩
  | read hf hr e =>
    rw [e]
    exact ⟨_, step_read hst (hft ▸ hf) hr, h0.respond rfl⟩
  | write hf hw hn e =>
    rw [e]
    exact ⟨_, step_write hst (hft ▸ hf) hw hn, (h0.writeTarget _ _).respond rfl⟩
  | rejected hf hw hn c hr e =>
    rw [e, step_command hst (hft ▸ hf) hw hn, present, ← front, hr]
    exact ⟨_, rfl, (h0.respond rfl).reject c⟩
  | command hf hw hn i hr e =>
    rw [step_command hst (hft ▸ hf) hw hn, present, ← front, hr]
    exact (h0.respond rfl).exec e

/-- From two states with the same control the same thing happens, and leaves two such states. -/
theorem SameControl.step {s' : State} (hstep : step s = .next s') : ∃ t', step t = .next t' ∧ SameControl s' t' := by
  cases step_cases hstep with
  | engine rest hscript _ =>
    have hm : EngineMoves s := hscript.imp And.left fun h => ⟨rest, h⟩
    have hmt : EngineMoves t := by simpa only [EngineMoves, h.script] using hm
    rw [step_engine hm] at hstep
    cases hstep
    rw [h.script]
    exact ⟨_, step_engine hmt, (h.takeEvent _).engineTurn⟩
  | reset a rest hscript e =>
    rw [e]
    exact ⟨_, step_reset (h.script ▸ hscript), (h.takeEvent rest).resetEdge a⟩
  | access a rest hscript e => exact h.access hscript e

end Control

/-- Settles O58: every step keeps the same control in both states, and BUSY and irq are functions of it. -/
theorem controlIndependentOfOperands : Obligations.ControlIndependentOfOperands := by
  intro s t s' h hstep
  obtain ⟨t', ht, h'⟩ := h.step hstep
  exact ⟨t', ht, h', h'.busy, h'.irq⟩

end Sys2Proof.Machine
end
